-- ==== Sys2Proof/Word.lean ====
section
/-! DEFINITION. The widths the spec names (rule R2): a word of 64 bits, a half-word of 32, a byte of 8. -/

namespace Sys2Proof

/-- A register's content, an address, an instruction word: 64 bits (rule R2). -/
abbrev Word := BitVec 64

/-- A half-word: the width of immediates and of the data `load`, `store` and `push` move (rules R2, R4). -/
abbrev Half := BitVec 32

/-- One byte of memory (rule R40). -/
abbrev Byte := BitVec 8

end Sys2Proof
end

