-- ==== Sys2Proof/Syntax.lean ====
section
/-! DEFINITION. The syntax of the 20 machine instructions (rule R86), one constructor for each row of
`spec/opcode_table.json`. Register numbers, comparison codes, data types and addressing modes are
names here; their bits are `Decode.lean`'s alone. -/

namespace Sys2Proof

/-- The 30 architectural registers (rule R10). `r k` is `$r(k+1)`, `s k` is `$s(k+1)`. -/
inductive Reg where
  | ip
  | sp
  | fp
  | flag
  | ret
  | zero
  | r (k : Fin 16)
  | s (k : Fin 8)
deriving DecidableEq, Repr

/-- The eight condition suffixes (rules R64, R65). -/
inductive CC where
  | ne
  | eq
  | lt
  | le
  | z
  | nz
  | gt
  | ge
deriving DecidableEq, Repr

/-- The conditional bits of the header (rule R61): `test` (bit 6) and the comparison code (bits 9:7).
With `test` = 0 the code is ignored, yet it is part of the word (rule R63). -/
structure Cond where
  test : Bool
  cc : CC
deriving DecidableEq, Repr

/-- The header of a mnemonic without a postfix, as the assembler writes it: `test` = 0, `cc` = 000. -/
def Cond.always : Cond := ⟨false, .ne⟩

/-- The header of a mnemonic with the postfix `?cc`. -/
def Cond.on (cc : CC) : Cond := ⟨true, cc⟩

/-- The six data types (rule R66). -/
inductive DType where
  /-- 32-bit unsigned integer -/
  | hu
  /-- 64-bit unsigned integer: the default -/
  | u
  /-- 32-bit signed integer -/
  | hs
  /-- 64-bit signed integer -/
  | s
  /-- 32-bit float -/
  | f
  /-- 64-bit double -/
  | d
deriving DecidableEq, Repr

/-- A `<value>` operand in one of the four addressing modes (rule R69). -/
inductive Value where
  /-- mode 00, `imm` -/
  | imm (data : Half)
  /-- mode 01, `(mem)` -/
  | mem (addr : Half)
  /-- mode 10, `$reg` -/
  | reg (r : Reg)
  /-- mode 11, `n($reg)`, `n` signed -/
  | ind (r : Reg) (n : BitVec 24)
deriving DecidableEq, Repr

/-- An `<addr>` operand: a `<value>` in any mode but immediate (rule R84). -/
inductive Addr where
  /-- mode 01, `(mem)` -/
  | mem (addr : Half)
  /-- mode 10, `$reg` -/
  | reg (r : Reg)
  /-- mode 11, `n($reg)`, `n` signed -/
  | ind (r : Reg) (n : BitVec 24)
deriving DecidableEq, Repr

/-- The machine instructions (rule R86), in the order of their opcodes. -/
inductive Instr where
  | nop
  | load (c : Cond) (rd : Reg) (v : Value)
  | loadu (c : Cond) (rd : Reg) (v : Value)
  | store (c : Cond) (rs : Reg) (a : Addr)
  | add (c : Cond) (dt : DType) (rd rs : Reg) (v : Value)
  | sub (c : Cond) (dt : DType) (rd rs : Reg) (v : Value)
  | mul (c : Cond) (dt : DType) (rd rs : Reg) (v : Value)
  | div (c : Cond) (dt : DType) (rd rs : Reg) (v : Value)
  | idiv (c : Cond) (dt : DType) (rd rs : Reg) (v : Value)
  | cmp (c : Cond) (dt : DType) (rs : Reg) (v : Value)
  | not (c : Cond) (rd rs : Reg)
  | and (c : Cond) (rd rs : Reg) (v : Value)
  | or (c : Cond) (rd rs : Reg) (v : Value)
  | xor (c : Cond) (rd rs : Reg) (v : Value)
  | shr (c : Cond) (rd rs : Reg) (v : Value)
  | shl (c : Cond) (rd rs : Reg) (v : Value)
  | push (c : Cond) (v : Value)
  | call (c : Cond) (v : Value)
  | ret (c : Cond)
  | syscall (c : Cond) (v : Value)
deriving DecidableEq, Repr

end Sys2Proof
end

