-- ==== Sys2Proof/WellFormed.lean ====
section
/-! DEFINITION. Which terms of the syntax are instructions. The types already exclude every other
illegal combination of rule R87 (an unnamed register, a reserved data type, an immediate `<addr>`);
the one left to check is case 8: the type `d` takes a register operand only (rules R81, R87). -/

namespace Sys2Proof

/-- The operand is in register mode. -/
def Value.isReg : Value → Bool
  | .reg _ => true
  | _ => false

/-- Rule R87 case 8: `dt` = `d` needs `v.mode` = 10. -/
def typedOperandOk (dt : DType) (v : Value) : Bool :=
  match dt with
  | .d => v.isReg
  | _ => true

/-- The instruction has an encoding. -/
def Instr.wf : Instr → Bool
  | .nop => true
  | .load _ _ _ => true
  | .loadu _ _ _ => true
  | .store _ _ _ => true
  | .add _ dt _ _ v => typedOperandOk dt v
  | .sub _ dt _ _ v => typedOperandOk dt v
  | .mul _ dt _ _ v => typedOperandOk dt v
  | .div _ dt _ _ v => typedOperandOk dt v
  | .idiv _ dt _ _ v => typedOperandOk dt v
  | .cmp _ dt _ v => typedOperandOk dt v
  | .not _ _ _ => true
  | .and _ _ _ _ => true
  | .or _ _ _ _ => true
  | .xor _ _ _ _ => true
  | .shr _ _ _ _ => true
  | .shl _ _ _ _ => true
  | .push _ _ => true
  | .call _ _ => true
  | .ret _ => true
  | .syscall _ _ => true

end Sys2Proof
end

