-- ==== Sys2Proof/Decode.lean ====
section
/-! DEFINITION. The decoder of rule R90, total on any bytes and rejecting by name, and the encoder,
both written from the register numbers of rule R23, the opcodes of rule R86 and the layouts of rules
R69 to R85 (the spec's decisions D1 to D7 and D9; log entry 10). -/

namespace Sys2Proof

/-! ## Numbers of the names -/

/-- The number of a register in a `<reg>` field (rule R23, `REGNUM`). -/
def Reg.number : Reg → Nat
  | .ip => 0
  | .sp => 1
  | .fp => 2
  | .flag => 3
  | .ret => 4
  | .zero => 5
  | .r k => 6 + k.val
  | .s k => 22 + k.val

/-- The register a number names; 30 and above name none (rules R23, R25). -/
def Reg.ofNumber (n : Nat) : Option Reg :=
  match n with
  | 0 => some .ip
  | 1 => some .sp
  | 2 => some .fp
  | 3 => some .flag
  | 4 => some .ret
  | 5 => some .zero
  | m + 6 =>
    if h : m < 16 then some (.r ⟨m, h⟩)
    else if h' : m - 16 < 8 then some (.s ⟨m - 16, h'⟩)
    else none

/-- The code of a condition suffix in bits 9:7 (rules R19, R64; `CC_Z` = 100 and `CC_NZ` = 101). -/
def CC.code : CC → BitVec 3
  | .ne => 0b000
  | .eq => 0b001
  | .lt => 0b010
  | .le => 0b011
  | .z => 0b100
  | .nz => 0b101
  | .gt => 0b110
  | .ge => 0b111

/-- Every three-bit code is some suffix's (rule R64). -/
def CC.ofCode (b : BitVec 3) : CC :=
  match b.toNat with
  | 0 => .ne
  | 1 => .eq
  | 2 => .lt
  | 3 => .le
  | 4 => .z
  | 5 => .nz
  | 6 => .gt
  | _ => .ge

/-- The data-type indicator (rule R66): bit 0 decimal, bit 1 signed, bit 2 full word. -/
def DType.code : DType → BitVec 3
  | .hu => 0b000
  | .f => 0b001
  | .hs => 0b010
  | .u => 0b100
  | .d => 0b101
  | .s => 0b110

/-- The opcode of an instruction (rule R86, `OPC`). -/
def Instr.opcode : Instr → BitVec 6
  | .nop => 0
  | .load _ _ _ => 1
  | .loadu _ _ _ => 2
  | .store _ _ _ => 3
  | .add _ _ _ _ _ => 4
  | .sub _ _ _ _ _ => 5
  | .mul _ _ _ _ _ => 6
  | .div _ _ _ _ _ => 7
  | .idiv _ _ _ _ _ => 8
  | .cmp _ _ _ _ => 9
  | .not _ _ _ => 10
  | .and _ _ _ _ => 11
  | .or _ _ _ _ => 12
  | .xor _ _ _ _ => 13
  | .shr _ _ _ _ => 14
  | .shl _ _ _ _ => 15
  | .push _ _ => 16
  | .call _ _ => 17
  | .ret _ => 18
  | .syscall _ _ => 19

/-! ## Decoding -/

/-- Why bytes are no instruction: the eight cases of rule R87, and a wrong number of bytes. -/
inductive DecodeError where
  /-- case 1: opcode 20 to 63 -/
  | unassignedOpcode
  /-- case 2: opcode 0 and another bit set -/
  | nopBits
  /-- case 3: a must-be-zero bit of the format is set -/
  | mustBeZero
  /-- case 4: a register number from 30 to 255 -/
  | registerNumber
  /-- case 5: mode 10 with `data[31:8]` nonzero -/
  | registerData
  /-- case 6: the `<addr>` of `store` in mode 00 -/
  | immediateAddr
  /-- case 7: `dt` = 3 or 7 -/
  | reservedType
  /-- case 8: `dt` = `d` with a mode other than 10 -/
  | doubleOperand
  /-- an instruction is eight bytes (rule R60) -/
  | wrongLength
deriving DecidableEq, Repr

/-- The field of `len` bits of `w` from bit `lo` up (`w[lo+len-1 : lo]`). -/
def field (w : Word) (lo len : Nat) : BitVec len := w.extractLsb' lo len

/-- A `<reg>` field (rules R25, R68). -/
def decodeReg (b : BitVec 8) : Except DecodeError Reg :=
  match Reg.ofNumber b.toNat with
  | some r => .ok r
  | none => .error .registerNumber

/-- The conditional bits of the header (rule R61). -/
def decodeCond (w : Word) : Cond := ⟨w.getLsbD 6, CC.ofCode (field w 7 3)⟩

/-- The data-type field (rules R66, R87 case 7). -/
def decodeType (b : BitVec 3) : Except DecodeError DType :=
  match b.toNat with
  | 0 => .ok .hu
  | 1 => .ok .f
  | 2 => .ok .hs
  | 4 => .ok .u
  | 5 => .ok .d
  | 6 => .ok .s
  | _ => .error .reservedType

/-- A `<value>` operand (rules R69, R85): `mode` in the low two bits, `data` above it. -/
def decodeValue (o : BitVec 34) : Except DecodeError Value :=
  let data : Half := o.extractLsb' 2 32
  match (o.extractLsb' 0 2).toNat with
  | 0 => .ok (.imm data)
  | 1 => .ok (.mem data)
  | 2 =>
    if data.extractLsb' 8 24 = 0 then (decodeReg (data.extractLsb' 0 8)).map .reg
    else .error .registerData
  | _ => (decodeReg (data.extractLsb' 0 8)).map fun r => .ind r (data.extractLsb' 8 24)

/-- An `<addr>` operand (rule R84): a `<value>` that is not immediate. -/
def decodeAddr (o : BitVec 34) : Except DecodeError Addr :=
  match decodeValue o with
  | .ok (.imm _) => .error .immediateAddr
  | .ok (.mem a) => .ok (.mem a)
  | .ok (.reg r) => .ok (.reg r)
  | .ok (.ind r n) => .ok (.ind r n)
  | .error e => .error e

/-- The must-be-zero bits from `lo` to 63 (rule R87 case 3). -/
def checkZero (w : Word) (lo : Nat) : Except DecodeError Unit :=
  if w.toNat < 2 ^ lo then .ok () else .error .mustBeZero

/-- Rule R87 case 8. -/
def checkTyped (dt : DType) (v : Value) : Except DecodeError Unit :=
  if typedOperandOk dt v then .ok () else .error .doubleOperand

/-- Format `Z` (rule R74). -/
def decodeZ (w : Word) (k : Cond → Instr) : Except DecodeError Instr := do
  checkZero w 10
  pure (k (decodeCond w))

/-- Format `RV` (rule R75). -/
def decodeRV (w : Word) (k : Cond → Reg → Value → Instr) : Except DecodeError Instr := do
  checkZero w 52
  let rd ← decodeReg (field w 10 8)
  let v ← decodeValue (field w 18 34)
  pure (k (decodeCond w) rd v)

/-- Format `RA` (rule R76). -/
def decodeRA (w : Word) (k : Cond → Reg → Addr → Instr) : Except DecodeError Instr := do
  checkZero w 52
  let rs ← decodeReg (field w 10 8)
  let a ← decodeAddr (field w 18 34)
  pure (k (decodeCond w) rs a)

/-- Format `TRRV` (rule R77). -/
def decodeTRRV (w : Word) (k : Cond → DType → Reg → Reg → Value → Instr) :
    Except DecodeError Instr := do
  checkZero w 63
  let dt ← decodeType (field w 10 3)
  let rd ← decodeReg (field w 13 8)
  let rs ← decodeReg (field w 21 8)
  let v ← decodeValue (field w 29 34)
  checkTyped dt v
  pure (k (decodeCond w) dt rd rs v)

/-- Format `RRV` (rule R78). -/
def decodeRRV (w : Word) (k : Cond → Reg → Reg → Value → Instr) : Except DecodeError Instr := do
  checkZero w 60
  let rd ← decodeReg (field w 10 8)
  let rs ← decodeReg (field w 18 8)
  let v ← decodeValue (field w 26 34)
  pure (k (decodeCond w) rd rs v)

/-- Format `TRV` (rule R79). -/
def decodeTRV (w : Word) (k : Cond → DType → Reg → Value → Instr) : Except DecodeError Instr := do
  checkZero w 55
  let dt ← decodeType (field w 10 3)
  let rs ← decodeReg (field w 13 8)
  let v ← decodeValue (field w 21 34)
  checkTyped dt v
  pure (k (decodeCond w) dt rs v)

/-- Format `RR` (rule R80). -/
def decodeRR (w : Word) (k : Cond → Reg → Reg → Instr) : Except DecodeError Instr := do
  checkZero w 26
  let rd ← decodeReg (field w 10 8)
  let rs ← decodeReg (field w 18 8)
  pure (k (decodeCond w) rd rs)

/-- Format `V` (rule R83). -/
def decodeV (w : Word) (k : Cond → Value → Instr) : Except DecodeError Instr := do
  checkZero w 44
  let v ← decodeValue (field w 10 34)
  pure (k (decodeCond w) v)

/-- `Decode(w)` (rule R90). -/
def decode (w : Word) : Except DecodeError Instr :=
  match (field w 0 6).toNat with
  | 0 => if w = 0 then .ok .nop else .error .nopBits
  | 1 => decodeRV w .load
  | 2 => decodeRV w .loadu
  | 3 => decodeRA w .store
  | 4 => decodeTRRV w .add
  | 5 => decodeTRRV w .sub
  | 6 => decodeTRRV w .mul
  | 7 => decodeTRRV w .div
  | 8 => decodeTRRV w .idiv
  | 9 => decodeTRV w .cmp
  | 10 => decodeRR w .not
  | 11 => decodeRRV w .and
  | 12 => decodeRRV w .or
  | 13 => decodeRRV w .xor
  | 14 => decodeRRV w .shr
  | 15 => decodeRRV w .shl
  | 16 => decodeV w .push
  | 17 => decodeV w .call
  | 18 => decodeZ w .ret
  | 19 => decodeV w .syscall
  | _ => .error .unassignedOpcode

/-- The bytes of an instruction word as memory holds them, lowest address first (rules R45, R60). -/
def wordBytes (w : Word) : List Byte := (List.range 8).map fun k => w.extractLsb' (8 * k) 8

/-- The word eight bytes make, the first in bits 7:0 (rule R45). -/
def bytesWord : List Byte → Option Word
  | [b0, b1, b2, b3, b4, b5, b6, b7] => some (b7 ++ b6 ++ b5 ++ b4 ++ b3 ++ b2 ++ b1 ++ b0)
  | _ => none

/-- The decoder on bytes. -/
def decodeBytes (bs : List Byte) : Except DecodeError Instr :=
  match bytesWord bs with
  | some w => decode w
  | none => .error .wrongLength

/-- The instruction the decoder reads from an instruction whose low `nbits` bits are those of `w` and
whose other bits are 0, laid out in memory order first. -/
def decodeTableWord (nbits w : Nat) : Option Instr :=
  match decodeBytes (wordBytes (BitVec.ofNat 64 (w % 2 ^ nbits))) with
  | .ok i => some i
  | .error _ => none

/-! ## Encoding -/

/-- A `<reg>` field (rule R68). -/
def encodeReg (r : Reg) : BitVec 8 := BitVec.ofNat 8 r.number

/-- A `<value>` field: the mode in the low two bits (rules R69, R85). -/
def encodeValue : Value → BitVec 34
  | .imm data => data ++ 0b00#2
  | .mem addr => addr ++ 0b01#2
  | .reg r => 0#24 ++ encodeReg r ++ 0b10#2
  | .ind r n => n ++ encodeReg r ++ 0b11#2

/-- An `<addr>` as the `<value>` it is laid out like (rule R84). -/
def Addr.toValue : Addr → Value
  | .mem a => .mem a
  | .reg r => .reg r
  | .ind r n => .ind r n

/-- The ten header bits (rule R61). -/
def encodeHeader (i : Instr) (c : Cond) : BitVec 10 := c.cc.code ++ BitVec.ofBool c.test ++ i.opcode

/-- The word of an instruction (rules R72 to R83), high field first. -/
def encode (i : Instr) : Word :=
  match i with
  | .nop => 0
  | .load c rd v => 0#12 ++ encodeValue v ++ encodeReg rd ++ encodeHeader i c
  | .loadu c rd v => 0#12 ++ encodeValue v ++ encodeReg rd ++ encodeHeader i c
  | .store c rs a => 0#12 ++ encodeValue a.toValue ++ encodeReg rs ++ encodeHeader i c
  | .add c dt rd rs v => 0#1 ++ encodeValue v ++ encodeReg rs ++ encodeReg rd ++ dt.code ++ encodeHeader i c
  | .sub c dt rd rs v => 0#1 ++ encodeValue v ++ encodeReg rs ++ encodeReg rd ++ dt.code ++ encodeHeader i c
  | .mul c dt rd rs v => 0#1 ++ encodeValue v ++ encodeReg rs ++ encodeReg rd ++ dt.code ++ encodeHeader i c
  | .div c dt rd rs v => 0#1 ++ encodeValue v ++ encodeReg rs ++ encodeReg rd ++ dt.code ++ encodeHeader i c
  | .idiv c dt rd rs v => 0#1 ++ encodeValue v ++ encodeReg rs ++ encodeReg rd ++ dt.code ++ encodeHeader i c
  | .cmp c dt rs v => 0#9 ++ encodeValue v ++ encodeReg rs ++ dt.code ++ encodeHeader i c
  | .not c rd rs => 0#38 ++ encodeReg rs ++ encodeReg rd ++ encodeHeader i c
  | .and c rd rs v => 0#4 ++ encodeValue v ++ encodeReg rs ++ encodeReg rd ++ encodeHeader i c
  | .or c rd rs v => 0#4 ++ encodeValue v ++ encodeReg rs ++ encodeReg rd ++ encodeHeader i c
  | .xor c rd rs v => 0#4 ++ encodeValue v ++ encodeReg rs ++ encodeReg rd ++ encodeHeader i c
  | .shr c rd rs v => 0#4 ++ encodeValue v ++ encodeReg rs ++ encodeReg rd ++ encodeHeader i c
  | .shl c rd rs v => 0#4 ++ encodeValue v ++ encodeReg rs ++ encodeReg rd ++ encodeHeader i c
  | .push c v => 0#20 ++ encodeValue v ++ encodeHeader i c
  | .call c v => 0#20 ++ encodeValue v ++ encodeHeader i c
  | .ret c => 0#54 ++ encodeHeader i c
  | .syscall c v => 0#20 ++ encodeValue v ++ encodeHeader i c

end Sys2Proof
end

