-- ==== Sys2Proof/Config.lean ====
section
/-! DEFINITION. What an implementation fixes (`00_scope.md` section 5) and the free values.

The parameters that are plain data stand in the record `Config`; a machine's `State` carries one such
record and no step changes it, so that a claim over every state is a claim for every value of them
(log entry 1). The floating-point functions, which the spec leaves uninterpreted (rule R130), are
constants without a body: no proof can use anything of them but that they are functions of the type
and the two operands (log entry 2). -/

namespace Sys2Proof

/-- `COND_MATCH` (rule R64): how a comparison code is tested against `$flag`. -/
inductive CondMatch where
  /-- the code is a predicate on the flag bits: the spec's choice (decision D8) -/
  | semantic
  /-- the code equals `flag[2:0]`: the alternative the spec keeps -/
  | literal
deriving DecidableEq, Repr

/-- `INT_DIV` (rule R125): the rounding of `div` on the signed integer types. -/
inductive IntDiv where
  /-- toward minus infinity: the spec's choice (decision D21) -/
  | floor
  /-- toward zero: the reading `91_not_in_source.md` N34 calls as likely in an implementation -/
  | truncate
deriving DecidableEq, Repr

/-- `READ_STRING_TERM` (rule R261): whether the terminating zero counts toward the maximum length. -/
inductive ReadStringTerm where
  /-- up to `m` characters and then the zero: the spec's choice (decision D37) -/
  | outside
  /-- up to `m - 1` characters and the zero, nothing when `m = 0` -/
  | inside
deriving DecidableEq, Repr

/-- The configuration record of `00_scope.md` section 5, as far as it is plain data. -/
structure Config where
  /-- `MEM_SIZE`: the number of bytes of memory (rule R40) -/
  memSize : Nat
  /-- `ENTRY`: `$ip` after reset (rule R330) -/
  entry : Word
  /-- `STACK_BASE`: `$sp` and `$fp` after reset (rule R330) -/
  stackBase : Word
  condMatch : CondMatch
  intDiv : IntDiv
  readStringTerm : ReadStringTerm
deriving DecidableEq, Repr

/-- The defaults the spec decides (`ENTRY` = 0, `SEMANTIC`, floor, `outside`), and, for the two open
parameters, the values the spec's own vectors use (`95_test_vectors.md`: `MEM_SIZE` = 10000 and
`STACK_BASE` = 8000, both hexadecimal). DESIGN CHOICE, log entry 3. -/
def Config.default : Config where
  memSize := 0x10000
  entry := 0
  stackBase := 0x8000
  condMatch := .semantic
  intDiv := .floor
  readStringTerm := .outside

/-- What rule R40 asks of `MEM_SIZE`: `8 <= MEM_SIZE <= 2^64`. -/
abbrev Config.Sound (c : Config) : Prop := 8 ≤ c.memSize ∧ c.memSize ≤ 2 ^ 64

/-- The four outcomes of a comparison (rule R151). -/
inductive Relation where
  | less
  | equal
  | greater
  /-- floating-point operands only -/
  | unordered
deriving DecidableEq, Repr, Inhabited

/-! The uninterpreted functions of rule R130 and R132, one for each floating-point type. -/

/-- `FADD(f, a, b)` -/
opaque Config.fadd32 : Half → Half → Half
/-- `FADD(d, a, b)` -/
opaque Config.fadd64 : Word → Word → Word
/-- `FSUB(f, a, b)` -/
opaque Config.fsub32 : Half → Half → Half
/-- `FSUB(d, a, b)` -/
opaque Config.fsub64 : Word → Word → Word
/-- `FMUL(f, a, b)` -/
opaque Config.fmul32 : Half → Half → Half
/-- `FMUL(d, a, b)` -/
opaque Config.fmul64 : Word → Word → Word
/-- `FDIV(f, a, b)`, a zero divisor included -/
opaque Config.fdiv32 : Half → Half → Half
/-- `FDIV(d, a, b)`, a zero divisor included -/
opaque Config.fdiv64 : Word → Word → Word
/-- `FIDIV(f, a, b)`: a 64-bit integer (rule R132) -/
opaque Config.fidiv32 : Half → Half → Word
/-- `FIDIV(d, a, b)`: a 64-bit integer (rule R132) -/
opaque Config.fidiv64 : Word → Word → Word
/-- `FCMP(f, a, b)` (rule R151) -/
opaque Config.fcmp32 : Half → Half → Relation
/-- `FCMP(d, a, b)` (rule R151) -/
opaque Config.fcmp64 : Word → Word → Relation

end Sys2Proof
end

