-- ==== Sys2Proof/Machine/State.lean ====
section
/-! DEFINITION. The state of the machine (rules R10 to R31), plain data, and its value after reset
(rule R330); the reasons a step can stop. -/

namespace Sys2Proof.Machine

/-- A fault of the architecture (rule R300). The machine TAKES it: its effect (rule R301) is a next
state. The reason, and the address of the access for `memRange`, are kept as ghost state only. -/
inductive FaultReason where
  /-- an access of `n` bytes at `addr` with `addr + n > MEM_SIZE` -/
  | memRange (addr : Nat)
  /-- the word is one of the illegal words of rule R87 -/
  | illegalInstruction
  /-- the divisor of an integer `div` or `idiv` is 0 -/
  | divideByZero
  /-- the service number is not 1 to 12 -/
  | badSyscall
deriving DecidableEq, Repr

/-- Why a machine has no next state, though nothing is left unmodelled. -/
inductive Fault where
  /-- `flag.RUN` = 0: a halted Processor takes no step (rules R27, R302). Raised by `step` alone.
  Safe: the spec gives no next state either. -/
  | halted
  /-- an input service the host has no answer for: "stuck, not halted" (rule R251). Raised by the
  `read_*` services alone. Safe: the spec gives no next state either. -/
  | noInput
deriving DecidableEq, Repr

/-- No meaning for the instruction. -/
inductive Refusal where
  /-- an arm of `exec` without a meaning, by its mnemonic; no arm is left so. Safe. -/
  | notModelled (mnemonic : String)
deriving DecidableEq, Repr

/-- An event of the output list (rules R251 to R256): the service and the bits it was given. -/
inductive OutputEvent where
  | printInt (v : Word)
  | printFloat (v : Half)
  | printDouble (v : Word)
  | printChar (v : Byte)
  | printString (bs : List Byte)
deriving DecidableEq, Repr

/-- One answer of the host to a `read_*` service (rules R257 to R261). -/
inductive InputAnswer where
  | int (v : Word)
  | float (v : Half)
  | double (v : Word)
  | char (v : Byte)
  | string (bs : List Byte)
deriving DecidableEq, Repr

/-- The register file (rule R10). `$zero` has no storage (rule R17). -/
structure Regs where
  ip : Word
  sp : Word
  fp : Word
  flag : Word
  ret : Word
  /-- `$r1` to `$r16`, `$r1` first -/
  r : Vector Word 16
  /-- `$s1` to `$s8`, `$s1` first -/
  s : Vector Word 8
deriving DecidableEq, Repr

/-- Memory as the list of its cells that differ from what an unlisted address reads as (log entry 5),
addresses strictly rising. -/
abbrev Memory := List Host.Cell

/-- The whole state. -/
structure State where
  /-- the 30 registers (rule R10) -/
  regs : Regs
  /-- the one memory (rules R30, R40) -/
  mem : Memory
  /-- the output event list, oldest first (rule R251) -/
  output : List OutputEvent
  /-- the host's answers still to come, the next one first (rule R251; log entry 8) -/
  input : List InputAnswer
  /-- ghost: the last fault taken (rule R300; log entry 7) -/
  lastFault : Option FaultReason
  /-- the configuration, changed by no step (`00_scope.md` section 5; log entry 1) -/
  cfg : Config
deriving DecidableEq, Repr

/-- The state after reset under a configuration (rule R330). `$ret`, `$r1` to `$r16` and `$s1` to
`$s8`, which the rule leaves unspecified, are 0: DESIGN CHOICE, unsafe (log entry 4). Memory has no
image, and no answer of the host is pending (log entries 5, 8). -/
def State.resetWith (cfg : Config) : State where
  regs :=
    { ip := cfg.entry
      sp := cfg.stackBase
      fp := cfg.stackBase
      flag := 0x10
      ret := 0
      r := Vector.replicate 16 0
      s := Vector.replicate 8 0 }
  mem := []
  output := []
  input := []
  lastFault := none
  cfg := cfg

/-- The machine right after reset (rule R330), under the configuration of log entry 3. -/
def State.reset : State := State.resetWith Config.default

end Sys2Proof.Machine
end

