-- ==== Sys2Proof/Machine/Flags.lean ====
section
/-! DEFINITION. The bits of `$flag` (rule R14), every computation on them, and the condition predicate
(rule R64). Functions on words: the register itself is read and written in `Ops.lean`. -/

namespace Sys2Proof.Machine

/-- `flag.cmp`, bits 2:0 (rule R19). -/
def flagCmp (w : Word) : BitVec 3 := w.extractLsb' 0 3

/-- `flag.Z`, bit 3 (rule R18). -/
def flagZ (w : Word) : Bool := w.getLsbD 3

/-- `flag.RUN`, bit 4 (rule R16). -/
def flagRun (w : Word) : Bool := w.getLsbD 4

/-- `flag.ERR`, bit 5 (rule R15). -/
def flagErr (w : Word) : Bool := w.getLsbD 5

/-- `flag[3] <- z`, the other bits kept (rule R18). -/
def withZ (w : Word) (z : Bool) : Word := w.extractLsb' 4 60 ++ BitVec.ofBool z ++ w.extractLsb' 0 3

/-- `flag[2:0] <- code`, the other bits kept (rule R150). -/
def withCmp (w : Word) (code : BitVec 3) : Word := w.extractLsb' 3 61 ++ code

/-- `flag[4] <- run`, the other bits kept (rules R262, R301). -/
def withRun (w : Word) (run : Bool) : Word :=
  w.extractLsb' 5 59 ++ BitVec.ofBool run ++ w.extractLsb' 0 4

/-- `flag[5] <- err`, the other bits kept (rule R301). -/
def withErr (w : Word) (err : Bool) : Word :=
  w.extractLsb' 6 58 ++ BitVec.ofBool err ++ w.extractLsb' 0 5

/-- The code `cmp` writes for a relation (rule R151). -/
def relationCode : Relation → BitVec 3
  | .less => 0b010
  | .equal => 0b001
  | .greater => 0b110
  | .unordered => 0b000

/-- `Match(cc, flag)` under `SEMANTIC` (rule R64). -/
def matchSemantic (cc : CC) (w : Word) : Bool :=
  let isLess := w.extractLsb' 1 2 == 0b01#2
  let isGreater := w.extractLsb' 1 2 == 0b11#2
  let isEqual := w.getLsbD 0
  match cc with
  | .ne => !isEqual
  | .eq => isEqual
  | .lt => isLess
  | .le => isLess || isEqual
  | .gt => isGreater
  | .ge => isGreater || isEqual
  | .z => flagZ w
  | .nz => !flagZ w

/-- `Match(cc, flag)` under `LITERAL` (rule R64): the eight codes alike. -/
def matchLiteral (cc : CC) (w : Word) : Bool := cc.code == flagCmp w

/-- `Match(cc, flag)` (rule R64). -/
def matchCC (m : CondMatch) (cc : CC) (w : Word) : Bool :=
  match m with
  | .semantic => matchSemantic cc w
  | .literal => matchLiteral cc w

/-- The condition test of an instruction (rule R63): with `test` = 0 the code is ignored. -/
def condHolds (m : CondMatch) (c : Cond) (w : Word) : Bool := !c.test || matchCC m c.cc w

end Sys2Proof.Machine
end

