-- ==== Sys2Proof/Machine/Ops.lean ====
section
/-! DEFINITION. The named operations: registers, memory, taking a fault, the condition test, and the
instruction fetch. -/

namespace Sys2Proof.Machine

/-- What an instruction answers. -/
abbrev Result := Host.Outcome State Fault Refusal

/-! ## Registers -/

/-- `x[r]`. A read of `$zero` gives 0 (rule R17). -/
def State.readReg (s : State) : Reg → Word
  | .ip => s.regs.ip
  | .sp => s.regs.sp
  | .fp => s.regs.fp
  | .flag => s.regs.flag
  | .ret => s.regs.ret
  | .zero => 0
  | .r k => s.regs.r[k]
  | .s k => s.regs.s[k]

/-- `x[r] <- v`. A write to `$zero` is discarded (rule R17); a write to `$flag` replaces all 64 bits
and a write to `$ip` is a control transfer (rule R24). -/
def State.writeReg (s : State) (r : Reg) (v : Word) : State :=
  match r with
  | .ip => { s with regs := { s.regs with ip := v } }
  | .sp => { s with regs := { s.regs with sp := v } }
  | .fp => { s with regs := { s.regs with fp := v } }
  | .flag => { s with regs := { s.regs with flag := v } }
  | .ret => { s with regs := { s.regs with ret := v } }
  | .zero => s
  | .r k => { s with regs := { s.regs with r := s.regs.r.set k v } }
  | .s k => { s with regs := { s.regs with s := s.regs.s.set k v } }

/-- The zero-flag update of rule R18: bit 3 from the destination read back after its write. -/
def State.updateZ (s : State) (rd : Reg) : State :=
  s.writeReg .flag (withZ (s.readReg .flag) (s.readReg rd == 0))

/-- The destination write of a `Z`-updating instruction (rules R18, R24): the register, then bit 3. -/
def State.writeDest (s : State) (rd : Reg) (v : Word) : State := (s.writeReg rd v).updateZ rd

/-! ## Memory -/

/-- What a byte that nothing has written reads as. DESIGN CHOICE, unsafe: rule R330 leaves the bytes
outside the loaded image unspecified (log entry 5). -/
def Memory.fill : Byte := 0

/-- The byte at an address. -/
def Memory.read : Memory → Nat → Byte
  | [], _ => Memory.fill
  | (b, v) :: m, a => if a = b then v else if a < b then Memory.fill else Memory.read m a

/-- Put a cell before the cells of higher addresses, unless it holds what an unlisted address reads
as. -/
def Memory.cons (a : Nat) (v : Byte) (m : Memory) : Memory :=
  if v = Memory.fill then m else (a, v) :: m

/-- Write one byte, keeping the canonical form. -/
def Memory.write : Memory → Nat → Byte → Memory
  | [], a, v => Memory.cons a v []
  | (b, w) :: m, a, v =>
    if a < b then Memory.cons a v ((b, w) :: m)
    else if a = b then Memory.cons a v m
    else (b, w) :: Memory.write m a v

/-- The canonical form: addresses strictly rising, no cell that an unlisted address reads as. -/
def Memory.wf : Memory → Bool
  | [] => true
  | [(_, v)] => v != Memory.fill
  | (a, v) :: (b, w) :: m => v != Memory.fill && decide (a < b) && Memory.wf ((b, w) :: m)

/-- `n` bytes from `a`, the byte at `a` in bits 7:0 (rules R43, R45). -/
def Memory.readBytes (m : Memory) (a : Nat) : (n : Nat) → BitVec (8 * n)
  | 0 => 0#0
  | n + 1 => (Memory.readBytes m (a + 1) n ++ m.read a : BitVec (8 * n + 8))

/-- Bytes one after another from `a` up. -/
def Memory.writeList (m : Memory) (a : Nat) : List Byte → Memory
  | [] => m
  | b :: bs => Memory.writeList (m.write a b) (a + 1) bs

/-- The low `8n` bits of `v` as `n` bytes, bits 7:0 first (rules R44, R45). -/
def valueBytes (n : Nat) {w : Nat} (v : BitVec w) : List Byte :=
  (List.range n).map fun k => v.extractLsb' (8 * k) 8

/-- Words one after another from `a` up, 8 bytes each. -/
def Memory.writeWords (m : Memory) (a : Nat) : List Word → Memory
  | [] => m
  | w :: ws => Memory.writeWords (m.writeList a (valueBytes 8 w)) (a + 8) ws

/-- The byte of memory at an address. -/
def State.byteAt (s : State) (a : Nat) : Byte := s.mem.read a

/-- The range check of rule R42: the sum is taken in the integers. -/
def State.inRange (s : State) (a : Word) (n : Nat) : Bool := decide (a.toNat + n ≤ s.cfg.memSize)

/-- An access that is not in range raises `Fault(MemRange)` (rule R42). -/
def State.checkRange (s : State) (a : Word) (n : Nat) : Except FaultReason Unit :=
  if s.inRange a n then .ok () else .error (.memRange a.toNat)

/-- `MemRead(a, n)` (rule R43). -/
def State.memRead (s : State) (a : Word) (n : Nat) : Except FaultReason (BitVec (8 * n)) :=
  if s.inRange a n then .ok (s.mem.readBytes a.toNat n) else .error (.memRange a.toNat)

/-- `MemWrite(a, n, v)` (rule R44). -/
def State.memWrite (s : State) (a : Word) (n : Nat) {w : Nat} (v : BitVec w) :
    Except FaultReason State :=
  if s.inRange a n then .ok { s with mem := s.mem.writeList a.toNat (valueBytes n v) }
  else .error (.memRange a.toNat)

/-! ## Taking a fault -/

/-- The effect of a fault (rule R301) on the state the instruction started from: `ERR` = 1, `RUN` = 0,
the reason kept as ghost state; nothing else changes. There is no return from a fault (rule R306). -/
def State.raise (s : State) (r : FaultReason) : State :=
  { s.writeReg .flag (withRun (withErr (s.readReg .flag) true) false) with lastFault := some r }

/-- The end of an instruction: its next state, or the fault taken from the state it started from, with
none of its writes (rules R301, R305). -/
def State.conclude (s : State) : Except FaultReason State → Result
  | .ok t => .next t
  | .error r => .next (s.raise r)

/-- The condition test before an instruction (rule R63): when it fails the instruction is skipped. -/
def State.conditional (s : State) (c : Cond) (body : Result) : Result :=
  if condHolds s.cfg.condMatch c (s.readReg .flag) then body else .next s

/-! ## Fetch -/

/-- The test of a step (rule R27): the Processor executes while `flag.RUN` = 1. -/
def State.running (s : State) : Bool := flagRun (s.readReg .flag)

/-- The instruction word at `$ip` (rules R27, R52): an ordinary `MemRead`. -/
def State.fetchWord (s : State) : Except FaultReason Word := s.memRead (s.readReg .ip) 8

/-- `ip <- a + 8`, modulo 2^64 (rules R27, R28). -/
def State.advance (s : State) : State := s.writeReg .ip (s.readReg .ip + 8)

/-- The eight bytes of an instruction placed where the next fetch reads them, if that is in range. -/
def State.placeWord (s : State) (w : Word) : State :=
  if s.inRange (s.readReg .ip) 8 then
    { s with mem := s.mem.writeList (s.readReg .ip).toNat (wordBytes w) }
  else s

end Sys2Proof.Machine
end

