-- ==== Sys2Proof/Machine/Operands.lean ====
section
/-! DEFINITION. Every operand form: `OpRead`, `ValZ`, `RegT`, `ValT`, `Loc` (rules R70, R71, R81, R82)
and the placement of a typed result (rule R127). -/

namespace Sys2Proof.Machine

/-- The width of a data type: `W` = 64 if `dt[2]` = 1 and 32 otherwise (rule R81). -/
def typeWidth : DType → Nat
  | .hu => 32
  | .hs => 32
  | .f => 32
  | .u => 64
  | .s => 64
  | .d => 64

/-- What `OpRead` returns: bits of one of two widths (rule R70). -/
inductive OperandBits where
  | half (b : Half)
  | full (b : Word)
deriving DecidableEq, Repr

/-- The address of register indirect: `x[reg] + sext_64(n)`, modulo 2^64 (rules R41, R70). -/
def State.indirect (s : State) (r : Reg) (n : BitVec 24) : Word := s.readReg r + n.signExtend 64

/-- A 32-bit memory operand (rules R47, R70). -/
def State.readHalf (s : State) (a : Word) : Except FaultReason OperandBits :=
  (s.memRead a 4).map fun b => .half b

/-- `OpRead(o)` (rule R70). -/
def State.opRead (s : State) : Value → Except FaultReason OperandBits
  | .imm data => .ok (.half data)
  | .mem a => s.readHalf (a.setWidth 64)
  | .reg r => .ok (.full (s.readReg r))
  | .ind r n => s.readHalf (s.indirect r n)

/-- `ValZ(o)`: the operand zero-extended to 64 bits (rule R71). -/
def State.valZ (s : State) (v : Value) : Except FaultReason Word :=
  (s.opRead v).map fun
    | .half b => b.setWidth 64
    | .full b => b

/-- `RegT(r, dt)`: the low `W` bits of a register (rule R81). -/
def State.regT (s : State) (r : Reg) (dt : DType) : BitVec (typeWidth dt) :=
  (s.readReg r).setWidth (typeWidth dt)

/-- A 32-bit operand under a data type (rule R81): as it is for `hu`, `hs`, `f`, zero-extended for
`u`, sign-extended for `s`. The rule says that `d` is not reached, being illegal at decode; the
function answers that case with the fault of an illegal word (log entry 15). -/
def widenHalf (dt : DType) (b : Half) : Except FaultReason (BitVec (typeWidth dt)) :=
  match dt with
  | .hu => .ok b
  | .hs => .ok b
  | .f => .ok b
  | .u => .ok (b.setWidth 64)
  | .s => .ok (b.signExtend 64)
  | .d => .error .illegalInstruction

/-- `ValT(o, dt)` (rule R81). -/
def State.valT (s : State) (v : Value) (dt : DType) : Except FaultReason (BitVec (typeWidth dt)) := do
  match ← s.opRead v with
  | .half b => widenHalf dt b
  | .full b => .ok (b.setWidth (typeWidth dt))

/-- `Place(r, dt)`: a `W`-bit result in a 64-bit destination (rule R127). -/
def placeResult (dt : DType) (r : BitVec (typeWidth dt)) : Word :=
  match dt with
  | .hs => BitVec.signExtend 64 r
  | _ => BitVec.setWidth 64 r

/-- The place an `<addr>` operand designates (rule R82). -/
inductive Place where
  | mem (addr : Word)
  | reg (r : Reg)
deriving DecidableEq, Repr

/-- `Loc(o)` (rule R82). -/
def State.loc (s : State) : Addr → Place
  | .mem a => .mem (a.setWidth 64)
  | .reg r => .reg r
  | .ind r n => .mem (s.indirect r n)

end Sys2Proof.Machine
end

