-- ==== Sys2Proof/Machine/Arithmetic.lean ====
section
/-! DEFINITION. `add`, `sub`, `mul`, `div`, `idiv` (rules R120 to R132). -/

namespace Sys2Proof.Machine

/-- `OP` of rule R120 together with `Place` (rule R127): the 64 bits written to `rd`. -/
abbrev ArithOp := (dt : DType) → BitVec (typeWidth dt) → BitVec (typeWidth dt) → Except FaultReason Word

/-- An operation that never faults, placed by its type. -/
def placed (op : (dt : DType) → BitVec (typeWidth dt) → BitVec (typeWidth dt) → BitVec (typeWidth dt)) :
    ArithOp :=
  fun dt a b => .ok (placeResult dt (op dt a b))

/-- The sum (rules R122, R130). -/
def addOp (dt : DType) (a b : BitVec (typeWidth dt)) : BitVec (typeWidth dt) :=
  match dt with
  | .f => Config.fadd32 a b
  | .d => Config.fadd64 a b
  | .hu | .u | .hs | .s => a + b

/-- The difference (rules R123, R130). -/
def subOp (dt : DType) (a b : BitVec (typeWidth dt)) : BitVec (typeWidth dt) :=
  match dt with
  | .f => Config.fsub32 a b
  | .d => Config.fsub64 a b
  | .hu | .u | .hs | .s => a - b

/-- The low half of the product (rules R124, R130). -/
def mulOp (dt : DType) (a b : BitVec (typeWidth dt)) : BitVec (typeWidth dt) :=
  match dt with
  | .f => Config.fmul32 a b
  | .d => Config.fmul64 a b
  | .hu | .u | .hs | .s => a * b

/-- The unsigned quotient: `floor(u(a) / u(b))` (rule R125). -/
def unsignedQuotient {w : Nat} (a b : BitVec w) : BitVec w := BitVec.ofNat w (a.toNat / b.toNat)

/-- The signed quotient under a rounding, modulo `2^W` (rules R125, R129). -/
def signedQuotient (mode : IntDiv) {w : Nat} (a b : BitVec w) : BitVec w :=
  match mode with
  | .floor => BitVec.ofInt w (Int.fdiv a.toInt b.toInt)
  | .truncate => BitVec.ofInt w (Int.tdiv a.toInt b.toInt)

/-- An integer division (rules R125, R128): the test is on the `W`-bit divisor. -/
def checkedQuotient {w : Nat} (b : BitVec w) (q : BitVec w) : Except FaultReason (BitVec w) :=
  if b = 0 then .error .divideByZero else .ok q

/-- The quotient of `div` (rules R125, R128, R130). -/
def divOp (mode : IntDiv) : ArithOp := fun dt a b =>
  match dt with
  | .f => .ok (placeResult .f (Config.fdiv32 a b))
  | .d => .ok (placeResult .d (Config.fdiv64 a b))
  | .hu => (checkedQuotient b (unsignedQuotient a b)).map (placeResult .hu)
  | .u => (checkedQuotient b (unsignedQuotient a b)).map (placeResult .u)
  | .hs => (checkedQuotient b (signedQuotient mode a b)).map (placeResult .hs)
  | .s => (checkedQuotient b (signedQuotient mode a b)).map (placeResult .s)

/-- The quotient of `idiv` (rules R126, R128, R132): the floor on the integer types, a 64-bit integer
on the floating-point types. -/
def idivOp : ArithOp := fun dt a b =>
  match dt with
  | .f => .ok (Config.fidiv32 a b)
  | .d => .ok (Config.fidiv64 a b)
  | .hu => (checkedQuotient b (unsignedQuotient a b)).map (placeResult .hu)
  | .u => (checkedQuotient b (unsignedQuotient a b)).map (placeResult .u)
  | .hs => (checkedQuotient b (signedQuotient .floor a b)).map (placeResult .hs)
  | .s => (checkedQuotient b (signedQuotient .floor a b)).map (placeResult .s)

/-- The common execution of the five instructions (rule R120). -/
def State.arith (s : State) (op : ArithOp) (dt : DType) (rd rs : Reg) (v : Value) :
    Except FaultReason State := do
  let b ← s.valT v dt
  let r ← op dt (s.regT rs dt) b
  pure (s.writeDest rd r)

/-- `add` (rule R122). -/
def execAdd (c : Cond) (dt : DType) (rd rs : Reg) (v : Value) (s : State) : Result :=
  s.conditional c (s.conclude (s.arith (placed addOp) dt rd rs v))

/-- `sub` (rule R123). -/
def execSub (c : Cond) (dt : DType) (rd rs : Reg) (v : Value) (s : State) : Result :=
  s.conditional c (s.conclude (s.arith (placed subOp) dt rd rs v))

/-- `mul` (rule R124). -/
def execMul (c : Cond) (dt : DType) (rd rs : Reg) (v : Value) (s : State) : Result :=
  s.conditional c (s.conclude (s.arith (placed mulOp) dt rd rs v))

/-- `div` (rule R125), rounding as the parameter `INT_DIV` says. -/
def execDiv (c : Cond) (dt : DType) (rd rs : Reg) (v : Value) (s : State) : Result :=
  s.conditional c (s.conclude (s.arith (divOp s.cfg.intDiv) dt rd rs v))

/-- `idiv` (rule R126). -/
def execIdiv (c : Cond) (dt : DType) (rd rs : Reg) (v : Value) (s : State) : Result :=
  s.conditional c (s.conclude (s.arith idivOp dt rd rs v))

end Sys2Proof.Machine
end

