-- ==== Sys2Proof/Machine/Compare.lean ====
section
/-! DEFINITION. `cmp` (rules R150 to R152). -/

namespace Sys2Proof.Machine

/-- The order of two values as unsigned numbers. -/
def unsignedRelation {w : Nat} (a b : BitVec w) : Relation :=
  if a.toNat < b.toNat then .less else if a.toNat = b.toNat then .equal else .greater

/-- The order of two values as two's-complement numbers. -/
def signedRelation {w : Nat} (a b : BitVec w) : Relation :=
  if a.toInt < b.toInt then .less else if a.toInt = b.toInt then .equal else .greater

/-- The relation of `a` to `b` under a data type (rule R151). -/
def relation (dt : DType) (a b : BitVec (typeWidth dt)) : Relation :=
  match dt with
  | .hu | .u => unsignedRelation a b
  | .hs | .s => signedRelation a b
  | .f => Config.fcmp32 a b
  | .d => Config.fcmp64 a b

/-- `cmp rs, v` (rules R150, R152): the comparison code from the relation, `Z` from the value. -/
def execCmp (c : Cond) (dt : DType) (rs : Reg) (v : Value) (s : State) : Result :=
  s.conditional c <| s.conclude do
    let b ← s.valT v dt
    let code := relationCode (relation dt (s.regT rs dt) b)
    pure (s.writeReg .flag (withZ (withCmp (s.readReg .flag) code) (b == 0)))

end Sys2Proof.Machine
end

