-- ==== Sys2Proof/Machine/DataTransfer.lean ====
section
/-! DEFINITION. `load`, `loadu`, `store` (rules R100 to R102). -/

namespace Sys2Proof.Machine

/-- `load rd, v` (rule R100): the whole register from `ValZ(v)`. -/
def execLoad (c : Cond) (rd : Reg) (v : Value) (s : State) : Result :=
  s.conditional c <| s.conclude do
    let b ← s.valZ v
    pure (s.writeDest rd b)

/-- `loadu rd, v` (rule R101): bits 63:32 from the low half of the operand, bits 31:0 kept. -/
def execLoadu (c : Cond) (rd : Reg) (v : Value) (s : State) : Result :=
  s.conditional c <| s.conclude do
    let b ← s.valZ v
    pure (s.writeDest rd (b.extractLsb' 0 32 ++ (s.readReg rd).extractLsb' 0 32))

/-- `store rs, a` (rule R102): 4 bytes to a memory place, all 64 bits to a register place, no flag. -/
def execStore (c : Cond) (rs : Reg) (a : Addr) (s : State) : Result :=
  s.conditional c <| s.conclude <|
    match s.loc a with
    | .mem addr => s.memWrite addr 4 (s.readReg rs)
    | .reg r => .ok (s.writeReg r (s.readReg rs))

end Sys2Proof.Machine
end

