-- ==== Sys2Proof/Machine/Functions.lean ====
section
/-! DEFINITION. `call` and `ret` (rules R210, R211) and the stack frame (rule R212, `FRAME` = 8 + 8 + 64
bytes, decision D31; log entry 12). -/

namespace Sys2Proof.Machine

/-- The size of the frame in bytes (rule R212). -/
def frameSize : Nat := 80

/-- What `call` pushes, lowest address first: the old `$fp`, the old `$ip`, `$s1` to `$s8` (rule
R212). -/
def State.frame (s : State) : List Word :=
  s.readReg .fp :: s.readReg .ip :: (List.finRange 8).map fun k => s.readReg (.s k)

/-- `call v` (rule R210). -/
def execCall (c : Cond) (v : Value) (s : State) : Result :=
  s.conditional c <| s.conclude do
    let t ← s.valZ v
    let base := s.readReg .sp
    s.checkRange base frameSize
    let pushed : State := { s with mem := s.mem.writeWords base.toNat s.frame }
    pure (((pushed.writeReg .fp base).writeReg .sp (base + 80)).writeReg .ip t)

/-- The word of the frame at `f + off`. -/
def State.frameWord (s : State) (f : Word) (off : Nat) : Word := s.mem.readBytes (f.toNat + off) 8

/-- `$s1` to `$s8` reloaded from the frame at `f` (rule R211). -/
def State.reloadPreserved (s : State) (f : Word) : State :=
  (List.finRange 8).foldl (fun t k => t.writeReg (.s k) (s.frameWord f (16 + 8 * k.val))) s

/-- `ret` (rule R211): the frame is found through `$fp`, the count lies 4 bytes below it. -/
def execRet (c : Cond) (s : State) : Result :=
  s.conditional c <| s.conclude do
    let f := s.readReg .fp
    let n : Half ← s.memRead (f - 4) 4
    s.checkRange f frameSize
    let restored := s.reloadPreserved f
    pure (((restored.writeReg .ip (s.frameWord f 8)).writeReg .sp (f - 4 * (n.setWidth 64 + 1))).writeReg .fp
      (s.frameWord f 0))

end Sys2Proof.Machine
end

