-- ==== Sys2Proof/Machine/Logical.lean ====
section
/-! DEFINITION. `not`, `and`, `or`, `xor`, `shr`, `shl` (rules R170 to R176). -/

namespace Sys2Proof.Machine

/-- The common execution of the five three-operand forms (rule R170). -/
def State.logical (s : State) (op : Word → Word → Word) (rd rs : Reg) (v : Value) :
    Except FaultReason State := do
  let b ← s.valZ v
  pure (s.writeDest rd (op (s.readReg rs) b))

/-- The logical right shift by the whole 64-bit amount (rule R175). -/
def shiftRight (a b : Word) : Word :=
  if 64 ≤ b.toNat then 0 else BitVec.ofNat 64 (a.toNat / 2 ^ b.toNat)

/-- The left shift by the whole 64-bit amount (rule R176). -/
def shiftLeft (a b : Word) : Word :=
  if 64 ≤ b.toNat then 0 else BitVec.ofNat 64 (a.toNat * 2 ^ b.toNat)

/-- `not rd, rs` (rule R171). -/
def execNot (c : Cond) (rd rs : Reg) (s : State) : Result :=
  s.conditional c (.next (s.writeDest rd (s.readReg rs ^^^ 0xFFFFFFFFFFFFFFFF#64)))

/-- `and rd, rs, v` (rule R172). -/
def execAnd (c : Cond) (rd rs : Reg) (v : Value) (s : State) : Result :=
  s.conditional c (s.conclude (s.logical (fun a b => a &&& b) rd rs v))

/-- `or rd, rs, v` (rule R173). -/
def execOr (c : Cond) (rd rs : Reg) (v : Value) (s : State) : Result :=
  s.conditional c (s.conclude (s.logical (fun a b => a ||| b) rd rs v))

/-- `xor rd, rs, v` (rule R174). -/
def execXor (c : Cond) (rd rs : Reg) (v : Value) (s : State) : Result :=
  s.conditional c (s.conclude (s.logical (fun a b => a ^^^ b) rd rs v))

/-- `shr rd, rs, v` (rule R175). -/
def execShr (c : Cond) (rd rs : Reg) (v : Value) (s : State) : Result :=
  s.conditional c (s.conclude (s.logical shiftRight rd rs v))

/-- `shl rd, rs, v` (rule R176). -/
def execShl (c : Cond) (rd rs : Reg) (v : Value) (s : State) : Result :=
  s.conditional c (s.conclude (s.logical shiftLeft rd rs v))

end Sys2Proof.Machine
end

