-- ==== Sys2Proof/Machine/Misc.lean ====
section
/-! DEFINITION. `nop` (rule R240). -/

namespace Sys2Proof.Machine

/-- `nop` (rule R240): nothing beyond the advance of `$ip`, which the step has made. It has no
condition (rule R65). -/
def execNop (s : State) : Result := .next s

end Sys2Proof.Machine
end

