-- ==== Sys2Proof/Machine/Stack.lean ====
section
/-! DEFINITION. `push` (rule R190). -/

namespace Sys2Proof.Machine

/-- `push v` (rule R190): the low half of the operand at `$sp`, then `$sp` up by 4. -/
def execPush (c : Cond) (v : Value) (s : State) : Result :=
  s.conditional c <| s.conclude do
    let t ← s.valZ v
    let s' ← s.memWrite (s.readReg .sp) 4 t
    pure (s'.writeReg .sp (s.readReg .sp + 4))

end Sys2Proof.Machine
end

