-- ==== Sys2Proof/Machine/SystemCalls.lean ====
section
/-! DEFINITION. `syscall` (rule R218) and the twelve services (rules R250 to R264). -/

namespace Sys2Proof.Machine

/-- The services (rule R250). -/
inductive Service where
  | printInt
  | printFloat
  | printDouble
  | printChar
  | printString
  | readInt
  | readFloat
  | readDouble
  | readChar
  | readString
  | exit
  | exit2
deriving DecidableEq, Repr

/-- The service a number invokes, the number taken as 64-bit unsigned (rules R250, R264). -/
def serviceOf (k : Word) : Option Service :=
  match k.toNat with
  | 1 => some .printInt
  | 2 => some .printFloat
  | 3 => some .printDouble
  | 4 => some .printChar
  | 5 => some .printString
  | 6 => some .readInt
  | 7 => some .readFloat
  | 8 => some .readDouble
  | 9 => some .readChar
  | 10 => some .readString
  | 11 => some .exit
  | 12 => some .exit2
  | _ => none

/-- `x[$r1]`, the first argument of a service. -/
def State.arg1 (s : State) : Word := s.readReg (.r 0)

/-- `x[$r2]`, the second argument of a service. -/
def State.arg2 (s : State) : Word := s.readReg (.r 1)

/-! ## Output -/

/-- `OUT <- OUT ++ [e]` (rule R251). -/
def State.emit (s : State) (e : OutputEvent) : State := { s with output := s.output ++ [e] }

/-- Number 1 (rule R252). -/
def servicePrintInt (s : State) : Result := .next (s.emit (.printInt s.arg1))

/-- Number 2 (rule R253): bits 63:32 of `$r1` ignored. -/
def servicePrintFloat (s : State) : Result := .next (s.emit (.printFloat (s.arg1.extractLsb' 0 32)))

/-- Number 3 (rule R254). -/
def servicePrintDouble (s : State) : Result := .next (s.emit (.printDouble s.arg1))

/-- Number 4 (rule R255): bits 63:8 of `$r1` ignored. -/
def servicePrintChar (s : State) : Result := .next (s.emit (.printChar (s.arg1.extractLsb' 0 8)))

/-- The bytes from `a` up to the first zero byte, which is not among them, if one is met in the next
`fuel` bytes (rule R256). -/
def Memory.stringAt (m : Memory) : (fuel : Nat) → (a : Nat) → Option (List Byte)
  | 0, _ => none
  | fuel + 1, a =>
    if m.read a = 0 then some [] else (Memory.stringAt m fuel (a + 1)).map fun bs => m.read a :: bs

/-- The string at an address; it runs to the end of memory at most (rule R256; log entry 13). -/
def State.stringAt (s : State) (a : Word) : Except FaultReason (List Byte) :=
  match s.mem.stringAt (s.cfg.memSize - a.toNat) a.toNat with
  | some bs => .ok bs
  | none => .error (.memRange (max a.toNat s.cfg.memSize))

/-- Number 5 (rule R256). -/
def servicePrintString (s : State) : Result :=
  s.conclude do
    let bs ← s.stringAt s.arg1
    pure (s.emit (.printString bs))

/-! ## Input

The answer of the host is the first of the pending ones, if it is of the kind the service asks for;
otherwise the host has no answer and the Processor is stuck (rule R251; log entry 8). -/

/-- Number 6 (rule R257). -/
def serviceReadInt (s : State) : Result :=
  match s.input with
  | .int v :: rest => .next ({ s with input := rest }.writeReg .ret v)
  | _ => .fault .noInput

/-- Number 7 (rule R258). -/
def serviceReadFloat (s : State) : Result :=
  match s.input with
  | .float v :: rest => .next ({ s with input := rest }.writeReg .ret (v.setWidth 64))
  | _ => .fault .noInput

/-- Number 8 (rule R259). -/
def serviceReadDouble (s : State) : Result :=
  match s.input with
  | .double v :: rest => .next ({ s with input := rest }.writeReg .ret v)
  | _ => .fault .noInput

/-- Number 9 (rule R260). -/
def serviceReadChar (s : State) : Result :=
  match s.input with
  | .char v :: rest => .next ({ s with input := rest }.writeReg .ret (v.setWidth 64))
  | _ => .fault .noInput

/-- The bytes `read_string` writes for an answer and a maximum length, the terminator among them
(rule R261, `READ_STRING_TERM`). -/
def storedString (mode : ReadStringTerm) (m : Nat) (bs : List Byte) : List Byte :=
  match mode with
  | .outside => bs.take m ++ [0]
  | .inside => if m = 0 then [] else bs.take (m - 1) ++ [0]

/-- Bytes written after one range check; no byte, no access (rules R48, R261). -/
def State.storeBytes (s : State) (a : Word) (bs : List Byte) : Except FaultReason State :=
  if bs = [] then .ok s
  else if s.inRange a bs.length then .ok { s with mem := s.mem.writeList a.toNat bs }
  else .error (.memRange a.toNat)

/-- Number 10 (rule R261). An answer is a sequence of nonzero bytes (rule R251). -/
def serviceReadString (s : State) : Result :=
  match s.input with
  | .string bs :: rest =>
    if bs.all (· != 0) then
      s.conclude <|
        { s with input := rest }.storeBytes s.arg1 (storedString s.cfg.readStringTerm s.arg2.toNat bs)
    else .fault .noInput
  | _ => .fault .noInput

/-! ## Program flow -/

/-- `flag[4] <- 0`. -/
def State.halt (s : State) : State := s.writeReg .flag (withRun (s.readReg .flag) false)

/-- Number 11 (rule R262). -/
def serviceExit (s : State) : Result := .next s.halt

/-- Number 12 (rule R263). -/
def serviceExit2 (s : State) : Result := .next (s.writeReg .ret s.arg1).halt

/-! ## The instruction -/

/-- `Service(k)` for a number that names a service (rule R250). -/
def State.serve (s : State) : Service → Result
  | .printInt => servicePrintInt s
  | .printFloat => servicePrintFloat s
  | .printDouble => servicePrintDouble s
  | .printChar => servicePrintChar s
  | .printString => servicePrintString s
  | .readInt => serviceReadInt s
  | .readFloat => serviceReadFloat s
  | .readDouble => serviceReadDouble s
  | .readChar => serviceReadChar s
  | .readString => serviceReadString s
  | .exit => serviceExit s
  | .exit2 => serviceExit2 s

/-- `syscall v` (rules R218, R264). -/
def execSyscall (c : Cond) (v : Value) (s : State) : Result :=
  s.conditional c <|
    match s.valZ v with
    | .error r => s.conclude (.error r)
    | .ok k =>
      match serviceOf k with
      | some sv => s.serve sv
      | none => s.conclude (.error .badSyscall)

end Sys2Proof.Machine
end

