-- ==== Sys2Proof/Machine/Dispatch.lean ====
section
/-! DEFINITION. `Execute(i)` of rule R27, the condition test included: one arm per constructor. The state
given has `$ip` already advanced. -/

namespace Sys2Proof.Machine

def exec (i : Instr) (s : State) : Host.Outcome State Fault Refusal :=
  match i with
  | .nop => Sys2Proof.Machine.execNop s
  | .load c rd v => Sys2Proof.Machine.execLoad c rd v s
  | .loadu c rd v => Sys2Proof.Machine.execLoadu c rd v s
  | .store c rs a => Sys2Proof.Machine.execStore c rs a s
  | .add c dt rd rs v => Sys2Proof.Machine.execAdd c dt rd rs v s
  | .sub c dt rd rs v => Sys2Proof.Machine.execSub c dt rd rs v s
  | .mul c dt rd rs v => Sys2Proof.Machine.execMul c dt rd rs v s
  | .div c dt rd rs v => Sys2Proof.Machine.execDiv c dt rd rs v s
  | .idiv c dt rd rs v => Sys2Proof.Machine.execIdiv c dt rd rs v s
  | .cmp c dt rs v => Sys2Proof.Machine.execCmp c dt rs v s
  | .not c rd rs => Sys2Proof.Machine.execNot c rd rs s
  | .and c rd rs v => Sys2Proof.Machine.execAnd c rd rs v s
  | .or c rd rs v => Sys2Proof.Machine.execOr c rd rs v s
  | .xor c rd rs v => Sys2Proof.Machine.execXor c rd rs v s
  | .shr c rd rs v => Sys2Proof.Machine.execShr c rd rs v s
  | .shl c rd rs v => Sys2Proof.Machine.execShl c rd rs v s
  | .push c v => Sys2Proof.Machine.execPush c v s
  | .call c v => Sys2Proof.Machine.execCall c v s
  | .ret c => Sys2Proof.Machine.execRet c s
  | .syscall c v => Sys2Proof.Machine.execSyscall c v s

end Sys2Proof.Machine
end

