-- ==== Sys2Proof/Machine/Step.lean ====
section
/-! DEFINITION. One step of the Processor (rule R27). -/

namespace Sys2Proof.Machine

/-- `Step` (rules R27, R304): halted, then fetch, then the advance of `$ip`, then decode, then the
instruction with its condition test. -/
def step (s : State) : Host.Outcome State Fault Refusal :=
  if s.running then
    match s.fetchWord with
    | .error r => s.conclude (.error r)
    | .ok w =>
      match decode w with
      | .error _ => s.advance.conclude (.error .illegalInstruction)
      | .ok i => exec i s.advance
  else .fault .halted

/-- `s` with the instruction whose low `nbits` bits are those of `w` stored at `$ip`, where the next
step of a running machine fetches it. It stands for the host's loading of a program (rule R331; log
entry 14). -/
def State.withFetchWord (s : State) (nbits w : Nat) : State :=
  s.placeWord (BitVec.ofNat 64 (w % 2 ^ nbits))

end Sys2Proof.Machine
end

