-- ==== Sys2Proof/Machine/Assembler.lean ====
section
/-! DEFINITION. The assembler's part of the spec: the syntax of a machine instruction (rule R88) and the
pseudo-instructions, each expanded into machine instructions and none with an opcode (rule R89). The
machine never uses this file. -/

namespace Sys2Proof.Machine

/-! ## Syntax -/

/-- `$name` (rules R10, R88). -/
def regText : Reg → String
  | .ip => "$ip"
  | .sp => "$sp"
  | .fp => "$fp"
  | .flag => "$flag"
  | .ret => "$ret"
  | .zero => "$zero"
  | .r k => "$r" ++ toString (k.val + 1)
  | .s k => "$s" ++ toString (k.val + 1)

/-- The data-type suffix (rule R66); none for the default `u`. -/
def typeText : DType → String
  | .hu => "hu"
  | .u => ""
  | .hs => "hs"
  | .s => "s"
  | .f => "f"
  | .d => "d"

/-- The name of a condition (rule R65). -/
def ccText : CC → String
  | .ne => "ne"
  | .eq => "eq"
  | .lt => "lt"
  | .le => "le"
  | .z => "z"
  | .nz => "nz"
  | .gt => "gt"
  | .ge => "ge"

/-- The comparison postfix (rule R65); none with `test` = 0. -/
def condText (c : Cond) : String := if c.test then "?" ++ ccText c.cc else ""

/-- A `<value>` (rule R69). -/
def valueText : Value → String
  | .imm data => toString data.toNat
  | .mem addr => "(" ++ toString addr.toNat ++ ")"
  | .reg r => regText r
  | .ind r n => toString n.toInt ++ "(" ++ regText r ++ ")"

/-- `mnemonic[dtsuffix][?cond] operand operand ...` (rule R88). -/
def instrText : Instr → String
  | .nop => "nop"
  | .load c rd v => "load" ++ condText c ++ " " ++ regText rd ++ " " ++ valueText v
  | .loadu c rd v => "loadu" ++ condText c ++ " " ++ regText rd ++ " " ++ valueText v
  | .store c rs a => "store" ++ condText c ++ " " ++ regText rs ++ " " ++ valueText a.toValue
  | .add c dt rd rs v => typed "add" c dt rd rs v
  | .sub c dt rd rs v => typed "sub" c dt rd rs v
  | .mul c dt rd rs v => typed "mul" c dt rd rs v
  | .div c dt rd rs v => typed "div" c dt rd rs v
  | .idiv c dt rd rs v => typed "idiv" c dt rd rs v
  | .cmp c dt rs v => "cmp" ++ typeText dt ++ condText c ++ " " ++ regText rs ++ " " ++ valueText v
  | .not c rd rs => "not" ++ condText c ++ " " ++ regText rd ++ " " ++ regText rs
  | .and c rd rs v => untyped "and" c rd rs v
  | .or c rd rs v => untyped "or" c rd rs v
  | .xor c rd rs v => untyped "xor" c rd rs v
  | .shr c rd rs v => untyped "shr" c rd rs v
  | .shl c rd rs v => untyped "shl" c rd rs v
  | .push c v => "push" ++ condText c ++ " " ++ valueText v
  | .call c v => "call" ++ condText c ++ " " ++ valueText v
  | .ret c => "ret" ++ condText c
  | .syscall c v => "syscall" ++ condText c ++ " " ++ valueText v
where
  untyped (m : String) (c : Cond) (rd rs : Reg) (v : Value) : String :=
    m ++ condText c ++ " " ++ regText rd ++ " " ++ regText rs ++ " " ++ valueText v
  typed (m : String) (c : Cond) (dt : DType) (rd rs : Reg) (v : Value) : String :=
    untyped (m ++ typeText dt) c rd rs v

/-- A written immediate: a number of at most 32 bits, a negative one in two's complement (rule R88). -/
def immediateOf (n : Int) : Option Half :=
  if -(2 ^ 31) ≤ n ∧ n < 2 ^ 32 then some (BitVec.ofInt 32 n) else none

/-- A written offset: it must fit 24 bits signed (rules R85, R88). -/
def offsetOf (n : Int) : Option (BitVec 24) :=
  if -8388608 ≤ n ∧ n ≤ 8388607 then some (BitVec.ofInt 24 n) else none

/-- "The second `<reg>` is optional; if not present, registers are the same" (rules R88, R120, R170). -/
def secondReg (rd : Reg) (rs : Option Reg) : Reg := rs.getD rd

/-! ## Pseudo-instructions -/

/-- A line of assembly: a machine instruction or one of the twelve pseudo-instructions (rule R89). Only
those of one machine instruction take a condition. -/
inductive AsmLine where
  | machine (i : Instr)
  /-- rule R103 -/
  | loadw (rd : Reg) (const : Word)
  /-- rule R104 -/
  | zero (c : Cond) (rd : Reg)
  /-- rule R105 -/
  | loadl (rd : Reg) (n : Int) (rb : Reg)
  /-- rule R153 -/
  | jmp (a : Addr)
  /-- rule R154 -/
  | branch (cc : CC) (a : Addr)
  /-- rule R191 -/
  | pushl (const : Word)
  /-- rule R192, without a register -/
  | pop (c : Cond)
  /-- rule R192, with a register -/
  | popReg (rd : Reg)
  /-- rule R193, without a register -/
  | popl (c : Cond)
  /-- rule R193, with a register -/
  | poplReg (rd : Reg)
  /-- rule R215 -/
  | stargs (vs : List Value)
  /-- rule R216 -/
  | noargs (c : Cond)
  /-- rule R217 -/
  | ldarg (c : Cond) (rd : Reg) (i : Nat)
  /-- rule R241 -/
  | exit (c : Cond)
deriving DecidableEq, Repr

/-- The low and the high half of a 64-bit constant: the source's `$value[:32]` and `$value[32:]`. -/
def lowHalf (w : Word) : Half := w.extractLsb' 0 32
/-- See `lowHalf`. -/
def highHalf (w : Word) : Half := w.extractLsb' 32 32

/-- `loadl rd, n(rb)` (rule R105); the assembler refuses `rd` = `rb`, `rd` = `$ip` and an offset that does
not fit. -/
def expandLoadl (rd : Reg) (n : Int) (rb : Reg) : Option (List Instr) := do
  guard (rd ≠ rb ∧ rd ≠ .ip)
  let lo ← offsetOf n
  let hi ← offsetOf (n + 4)
  pure [.load .always rd (.ind rb lo), .loadu .always rd (.ind rb hi)]

/-- `sub $sp, $sp, n`. -/
def lowerSp (c : Cond) (n : Half) : Instr := .sub c .u .sp .sp (.imm n)

/-- The offset of argument `i` of `n` from `$fp` (rules R214, R217). -/
def argOffset (n i : Nat) : Int := -4 * (1 + n - i)

/-- The machine instructions of a line and the argument count the assembler then remembers, given the
one it remembers before (rules R89, R215 to R217); `none` where it refuses the line
(`93_implementation_defined.md` U13). -/
def expand (cached : Option Nat) : AsmLine → Option (List Instr × Option Nat)
  | .machine i => if i.wf then some ([i], cached) else none
  | .loadw rd k =>
    if rd = .ip then none
    else some ([.load .always rd (.imm (lowHalf k)), .loadu .always rd (.imm (highHalf k))], cached)
  | .zero c rd => some ([.xor c rd rd (.reg rd)], cached)
  | .loadl rd n rb => (expandLoadl rd n rb).map fun is => (is, cached)
  | .jmp a => some ([.load .always .ip a.toValue], cached)
  | .branch cc a => some ([.load (.on cc) .ip a.toValue], cached)
  | .pushl k => some ([.push .always (.imm (lowHalf k)), .push .always (.imm (highHalf k))], cached)
  | .pop c => some ([lowerSp c 4], cached)
  | .popReg rd => some ([lowerSp .always 4, .load .always rd (.ind .sp 0)], cached)
  | .popl c => some ([lowerSp c 8], cached)
  | .poplReg rd => (expandLoadl rd 0 .sp).map fun is => (lowerSp .always 8 :: is, cached)
  | .stargs vs => (immediateOf vs.length).map fun n =>
      (vs.map (fun v => .push .always v) ++ [.push .always (.imm n)], some vs.length)
  | .noargs c => some ([.push c (.imm 0)], some 0)
  | .ldarg c rd i => do
      let n ← cached
      guard (i < n)
      let off ← offsetOf (argOffset n i)
      pure ([.load c rd (.ind .fp off)], cached)
  | .exit c => some ([.syscall c (.imm 11)], cached)

/-- The machine instructions of a program text, the cached count passed from line to line. -/
def assemble (cached : Option Nat) : List AsmLine → Option (List Instr)
  | [] => some []
  | l :: ls => do
      let (is, cached') ← expand cached l
      let rest ← assemble cached' ls
      pure (is ++ rest)

end Sys2Proof.Machine
end

