-- ==== Sys2Proof/Safety.lean ====
section
/-! DEFINITION. The terms claims use: the end of a run (rules R302, R310), the invariant of the machine,
what it is for one state to differ from another by a destination write or by a fault only, and the
illegal words of rule R87 written on raw bits, apart from the decoder. -/

namespace Sys2Proof.Machine

/-! ## Runs -/

/-- One step of a run. -/
def State.Steps1 (s t : State) : Prop := step s = .next t

/-- A run: any number of steps. -/
inductive State.Runs : State → State → Prop where
  | refl (s : State) : State.Runs s s
  | tail {s t u : State} : State.Runs s t → State.Steps1 t u → State.Runs s u

/-- A run is over when `flag.RUN` = 0 (rule R310). -/
def State.Halted (s : State) : Prop := flagRun (s.readReg .flag) = false

/-- A good final state: `flag.RUN` = 0 and `flag.ERR` = 0 (rule R310). -/
def State.GoodEnd (s : State) : Prop := s.Halted ∧ flagErr (s.readReg .flag) = false

/-- A failed run: halted with `flag.ERR` = 1 (rule R310). -/
def State.FailedEnd (s : State) : Prop := s.Halted ∧ flagErr (s.readReg .flag) = true

/-- The process exit code on halt (rules R20, R310). -/
def State.exitCode (s : State) : Word := s.readReg .ret

/-- Stuck at an input service without an answer, which is no end of a run (rules R251, R310). -/
def State.Stuck (s : State) : Prop := step s = .fault .noInput

/-- What the host must provide before the first instruction, as far as it is about the state alone
(rule R331): the entry is in memory and the stack starts inside it. -/
def State.Bootable (s : State) : Prop :=
  s.cfg.Sound ∧ s.readReg .ip = s.cfg.entry ∧ s.cfg.entry.toNat + 8 ≤ s.cfg.memSize ∧
    s.readReg .sp = s.cfg.stackBase ∧ s.readReg .fp = s.cfg.stackBase ∧
    s.cfg.stackBase.toNat ≤ s.cfg.memSize

/-! ## The invariant -/

/-- The memory is in canonical form and lists no byte outside `MEM_SIZE` (rules R40, R42). -/
def State.MemOk (s : State) : Prop :=
  s.mem.wf = true ∧ ∀ c ∈ s.mem, c.1 < s.cfg.memSize

/-! ## Differences between states -/

/-- Every register but the listed ones reads the same. -/
def SameRegsBut (rs : List Reg) (s t : State) : Prop := ∀ r, r ∉ rs → t.readReg r = s.readReg r

/-- Every byte of memory reads the same. -/
def SameMem (s t : State) : Prop := ∀ a, t.byteAt a = s.byteAt a

/-- Every byte of memory outside `[lo, lo + n)` reads the same. -/
def SameMemBut (lo n : Nat) (s t : State) : Prop :=
  ∀ a, a < lo ∨ lo + n ≤ a → t.byteAt a = s.byteAt a

/-- Output, input and the configuration are the same. -/
def SameHost (s t : State) : Prop := t.output = s.output ∧ t.input = s.input ∧ t.cfg = s.cfg

/-- Nothing but `$ip` is touched. -/
structure OnlyIpMoved (s t : State) : Prop where
  regs : SameRegsBut [.ip] s t
  mem : SameMem s t
  host : SameHost s t
  ghost : t.lastFault = s.lastFault

/-- The condition bits let an instruction with them run (rule R63). -/
def State.Passes (s : State) (c : Cond) : Prop :=
  condHolds s.cfg.condMatch c (s.readReg .flag) = true

/-- The integer data types (rule R121). -/
def IsInteger (dt : DType) : Prop := dt ≠ .f ∧ dt ≠ .d

/-- The effect of a destination write of `v` to `rd` with its zero-flag update (rules R17, R18, R24,
R155) and of nothing else. -/
structure WroteDest (s t : State) (rd : Reg) (v : Word) : Prop where
  /-- the destination holds the value; `$flag` and `$zero` are said below -/
  dest : rd ≠ .zero → rd ≠ .flag → t.readReg rd = v
  /-- `Z` from the destination read back: 0 for `$zero`, the written value for any other register -/
  zflag : flagZ (t.readReg .flag) = decide ((if rd = .zero then 0 else v) = 0)
  /-- the other flag bits: those written when `rd` is `$flag`, else as before -/
  flags : ∀ i, i ≠ 3 →
    (t.readReg .flag).getLsbD i = (if rd = .flag then v else s.readReg .flag).getLsbD i
  regs : SameRegsBut [rd, .flag] s t
  mem : SameMem s t
  host : SameHost s t
  ghost : t.lastFault = s.lastFault

/-- The effect of a fault (rule R301) and of nothing else. -/
structure TookFault (s t : State) (r : FaultReason) : Prop where
  err : flagErr (t.readReg .flag) = true
  halted : t.Halted
  flags : ∀ i, i ≠ 4 → i ≠ 5 → (t.readReg .flag).getLsbD i = (s.readReg .flag).getLsbD i
  regs : SameRegsBut [.flag] s t
  mem : SameMem s t
  host : SameHost s t
  ghost : t.lastFault = some r

end Sys2Proof.Machine

/-! ## What an instruction names -/

namespace Sys2Proof

open Machine

/-- The condition of an instruction holds; `nop` has none (rules R63, R65). -/
def Instr.passes (i : Instr) (s : State) : Bool :=
  match i with
  | .nop => true
  | .load c _ _ | .loadu c _ _ | .store c _ _ | .cmp c _ _ _ | .not c _ _ | .push c _ | .call c _
  | .ret c | .syscall c _ => condHolds s.cfg.condMatch c (s.readReg .flag)
  | .add c _ _ _ _ | .sub c _ _ _ _ | .mul c _ _ _ _ | .div c _ _ _ _ | .idiv c _ _ _ _ =>
    condHolds s.cfg.condMatch c (s.readReg .flag)
  | .and c _ _ _ | .or c _ _ _ | .xor c _ _ _ | .shr c _ _ _ | .shl c _ _ _ =>
    condHolds s.cfg.condMatch c (s.readReg .flag)

/-- The destination register of the `Z`-updating instructions (rule R18). -/
def Instr.zDest : Instr → Option Reg
  | .load _ rd _ | .loadu _ rd _ | .not _ rd _ => some rd
  | .add _ _ rd _ _ | .sub _ _ rd _ _ | .mul _ _ rd _ _ | .div _ _ rd _ _ | .idiv _ _ rd _ _ => some rd
  | .and _ rd _ _ | .or _ rd _ _ | .xor _ rd _ _ | .shr _ rd _ _ | .shl _ rd _ _ => some rd
  | .nop | .store _ _ _ | .cmp _ _ _ _ | .push _ _ | .call _ _ | .ret _ | .syscall _ _ => none

/-- An ordinary write to `$flag` (rule R24): a destination register, or the place of a `store`. -/
def Instr.namesFlag (i : Instr) : Prop :=
  i.zDest = some .flag ∨ ∃ c rs, i = .store c rs (.reg .flag)

/-- An ordinary write to `$ip` (rules R24, R155). -/
def Instr.namesIp (i : Instr) : Prop :=
  i.zDest = some .ip ∨ ∃ c rs, i = .store c rs (.reg .ip)

end Sys2Proof

/-! ## The illegal words, on raw bits -/

namespace Sys2Proof.Machine

/-- The unsigned number in bits `hi` down to `lo` of a word (`00_scope.md` section 6). -/
def bitsOf (w : Word) (hi lo : Nat) : Nat := w.toNat / 2 ^ lo % 2 ^ (hi + 1 - lo)

/-- Where an operand starts in the word, by opcode: the low bit of `v.mode` or `a.mode` (rules R75 to
R79, R83). -/
def operandAt (op : Nat) : Option Nat :=
  if op ∈ [1, 2, 3] then some 18
  else if op ∈ [4, 5, 6, 7, 8] then some 29
  else if op ∈ [11, 12, 13, 14, 15] then some 26
  else if op = 9 then some 21
  else if op ∈ [16, 17, 19] then some 10
  else none

/-- Where the `<reg>` fields start, by opcode (rules R75 to R80). -/
def regFieldsAt (op : Nat) : List Nat :=
  if op ∈ [1, 2, 3] then [10]
  else if op ∈ [4, 5, 6, 7, 8] then [13, 21]
  else if op ∈ [10, 11, 12, 13, 14, 15] then [10, 18]
  else if op = 9 then [13]
  else []

/-- The lowest must-be-zero bit at the top of the word, by opcode (rules R74 to R83). -/
def zeroFrom (op : Nat) : Nat :=
  if op ∈ [1, 2, 3] then 52
  else if op ∈ [4, 5, 6, 7, 8] then 63
  else if op ∈ [11, 12, 13, 14, 15] then 60
  else if op = 9 then 55
  else if op = 10 then 26
  else if op = 18 then 10
  else 44

/-- The eight bytes at `$ip`, where the next instruction is fetched (rule R27), lowest address first. -/
def State.bytesAtIp (s : State) : List Byte :=
  (List.range 8).map fun k => s.byteAt ((s.readReg .ip).toNat + k)

/-- The fetch is in range (rules R28, R42). -/
def State.FetchInRange (s : State) : Prop := (s.readReg .ip).toNat + 8 ≤ s.cfg.memSize

/-- The eight cases of rule R87, as the rule lists them. -/
def IllegalWord (w : Word) : Prop :=
  let op := bitsOf w 5 0
  let typed : Prop := op ∈ [4, 5, 6, 7, 8, 9]
  -- 1
  20 ≤ op ∨
  -- 2
  (op = 0 ∧ bitsOf w 63 6 ≠ 0) ∨
  (op ≠ 0 ∧ op < 20 ∧
    -- 3
    (bitsOf w 63 (zeroFrom op) ≠ 0 ∨
    -- 4
    (∃ p ∈ regFieldsAt op, 30 ≤ bitsOf w (p + 7) p) ∨
    (∃ p, operandAt op = some p ∧ 2 ≤ bitsOf w (p + 1) p ∧ 30 ≤ bitsOf w (p + 9) (p + 2)) ∨
    -- 5
    (∃ p, operandAt op = some p ∧ bitsOf w (p + 1) p = 2 ∧ bitsOf w (p + 33) (p + 10) ≠ 0) ∨
    -- 6
    (op = 3 ∧ bitsOf w 19 18 = 0) ∨
    -- 7
    (typed ∧ (bitsOf w 12 10 = 3 ∨ bitsOf w 12 10 = 7)) ∨
    -- 8
    (typed ∧ bitsOf w 12 10 = 5 ∧ ∃ p, operandAt op = some p ∧ bitsOf w (p + 1) p ≠ 2)))

end Sys2Proof.Machine
end

