-- ==== Sys2Proof/Certificates/Slice0/Obligations.lean ====
section
/-! DEFINITION. The statements for the provers. Each docstring names the rule of spec/ it follows. -/

open Sys2Proof Sys2Proof.Machine

/-! ## Encoding -/

/-- Decoding the word of an instruction gives it back, every operand at every value (rules R72 to R90). -/
def Obligations.DecodeOfEncode : Prop :=
  ∀ i : Instr, i.wf = true → decode (encode i) = .ok i

/-- A legal word is the encoding of what it decodes to (rule R90: two legal words never decode to the
same fields). -/
def Obligations.EncodeOfDecode : Prop :=
  ∀ (w : Word) (i : Instr), decode w = .ok i → i.wf = true ∧ encode i = w

/-- The decoder rejects exactly the eight cases of rule R87, written on raw bits. -/
def Obligations.DecodeRejectsExactlyIllegalWords : Prop :=
  ∀ w : Word, (∃ e, decode w = .error e) ↔ IllegalWord w

/-- Words written out in `95_test_vectors.md` (E1, E5, E10, E11, E14, E16, X3, X17) decode as the spec says. -/
def Obligations.SpecWordsDecode : Prop :=
  decode 0x0000000000000000 = .ok .nop ∧
  decode 0x000FFFFFC02C2001 = .ok (.load .always (.r 2) (.ind .fp (-4))) ∧
  decode 0x7FFFFFFF81011804 = .ok (.add .always .s (.r 2) (.r 2) (.imm 0xFFFFFFFF)) ∧
  decode 0x000000000500D009 = .ok (.cmp .always .u (.r 0) (.imm 10)) ∧
  decode 0x0000000000005010 = .ok (.push .always (.imm 5)) ∧
  decode 0x00000000000000D2 = .ok (.ret (.on .eq)) ∧
  decode 0x0000000000000040 = .error .nopBits ∧
  decode 0x0000000280E0CC04 = .error .reservedType

/-! ## The step -/

/-- When the eight bytes at `$ip` decode to an instruction, the step of a running machine is `exec` of it
with `$ip` advanced by 8 and nothing else touched (rules R27, R28, R60). -/
def Obligations.StepRunsDecodedInstruction : Prop :=
  ∀ (s : State) (i : Instr), ¬ s.Halted → s.FetchInRange → decodeBytes s.bytesAtIp = .ok i →
    step s = exec i s.advance ∧ s.advance.readReg .ip = s.readReg .ip + 8 ∧ OnlyIpMoved s s.advance

/-- An illegal word faults before its condition test, `$ip` past it (rules R25, R87, R301, R304). -/
def Obligations.IllegalWordFaults : Prop :=
  ∀ (s : State) (w : Word), ¬ s.Halted → s.FetchInRange → s.bytesAtIp = wordBytes w → IllegalWord w →
    ∃ t, step s = .next t ∧ TookFault s.advance t .illegalInstruction

/-- A fetch out of range faults with `$ip` unmoved (rules R27, R42, R301). -/
def Obligations.FetchOutOfRangeFaults : Prop :=
  ∀ s : State, ¬ s.Halted → ¬ s.FetchInRange →
    ∃ t, step s = .next t ∧ TookFault s t (.memRange (s.readReg .ip).toNat)

/-- No step is taken exactly in the halted states (rules R16, R302). -/
def Obligations.HaltedTakesNoStep : Prop :=
  ∀ s : State, step s = .fault .halted ↔ s.Halted

/-! ## Conditional execution -/

/-- The condition predicate, code by code, under both readings, the first the default (rule R64). -/
def Obligations.ConditionPredicate : Prop :=
  Config.default.condMatch = .semantic ∧ ∀ w : Word,
    (matchCC .semantic .ne w = true ↔ w.getLsbD 0 = false) ∧
    (matchCC .semantic .eq w = true ↔ w.getLsbD 0 = true) ∧
    (matchCC .semantic .lt w = true ↔ w.getLsbD 2 = false ∧ w.getLsbD 1 = true) ∧
    (matchCC .semantic .le w = true ↔
      (w.getLsbD 2 = false ∧ w.getLsbD 1 = true) ∨ w.getLsbD 0 = true) ∧
    (matchCC .semantic .gt w = true ↔ w.getLsbD 2 = true ∧ w.getLsbD 1 = true) ∧
    (matchCC .semantic .ge w = true ↔
      (w.getLsbD 2 = true ∧ w.getLsbD 1 = true) ∨ w.getLsbD 0 = true) ∧
    (matchCC .semantic .z w = true ↔ w.getLsbD 3 = true) ∧
    (matchCC .semantic .nz w = true ↔ w.getLsbD 3 = false) ∧
    (∀ cc : CC, matchCC .literal cc w = true ↔ ∀ i, i < 3 → cc.code.getLsbD i = w.getLsbD i) ∧
    CC.ne.code = 0b000 ∧ CC.eq.code = 0b001 ∧ CC.lt.code = 0b010 ∧ CC.le.code = 0b011 ∧
    CC.gt.code = 0b110 ∧ CC.ge.code = 0b111 ∧ CC.z.code = 0b100 ∧ CC.nz.code = 0b101

/-- An instruction whose condition fails is skipped: no operand is read, no fault raised, no service
performed, only `$ip` has moved; `test` = 0 always passes, whatever the code; `nop` has no condition
(rules R63, R65). -/
def Obligations.FailedConditionSkips : Prop :=
  (∀ (i : Instr) (s : State), i.passes s = false → exec i s = .next s) ∧
  (∀ (s : State) (i : Instr), ¬ s.Halted → s.FetchInRange → decodeBytes s.bytesAtIp = .ok i →
    i.passes s = false →
      ∃ t, step s = .next t ∧ t.readReg .ip = s.readReg .ip + 8 ∧ OnlyIpMoved s t) ∧
  (∀ (m : CondMatch) (cc : CC) (w : Word),
    condHolds m ⟨false, cc⟩ w = true ∧ condHolds m ⟨true, cc⟩ w = matchCC m cc w) ∧
  (∀ s : State, Instr.nop.passes s = true)

/-! ## Memory and operands -/

/-- `MemRead` (rules R42, R43): in range, byte `k` of the value is the byte at `a + k`; else a fault. -/
def Obligations.MemReadBytes : Prop :=
  ∀ (s : State) (a : Word) (n : Nat), n = 1 ∨ n = 4 ∨ n = 8 →
    (a.toNat + n ≤ s.cfg.memSize →
      ∃ b, s.memRead a n = .ok b ∧ ∀ k, k < n → b.extractLsb' (8 * k) 8 = s.byteAt (a.toNat + k)) ∧
    (s.cfg.memSize < a.toNat + n → s.memRead a n = .error (.memRange a.toNat))

/-- `MemWrite` (rules R42, R44): in range, byte `k` of the value lands at `a + k`, every other byte and
everything else stays; else a fault. -/
def Obligations.MemWriteBytes : Prop :=
  ∀ (s : State) (a : Word) (n : Nat) (v : Word), n = 1 ∨ n = 4 ∨ n = 8 → s.MemOk →
    (a.toNat + n ≤ s.cfg.memSize →
      ∃ t, s.memWrite a n v = .ok t ∧
        (∀ k, k < n → t.byteAt (a.toNat + k) = v.extractLsb' (8 * k) 8) ∧
        SameMemBut a.toNat n s t ∧ SameRegsBut [] s t ∧ SameHost s t ∧
        t.lastFault = s.lastFault ∧ t.MemOk) ∧
    (s.cfg.memSize < a.toNat + n → s.memWrite a n v = .error (.memRange a.toNat))

/-- A mixed-width access sees the little-endian order (rule R45). -/
def Obligations.MixedWidthAccess : Prop :=
  ∀ (s t : State) (a v : Word), s.MemOk → s.cfg.Sound → s.memWrite a 8 v = .ok t →
    t.memRead a 8 = .ok v ∧
    t.memRead a 4 = .ok (v.extractLsb' 0 32) ∧
    t.memRead (a + 4) 4 = .ok (v.extractLsb' 32 32) ∧
    ∀ k, k < 8 → t.memRead (a + BitVec.ofNat 64 k) 1 = .ok (v.extractLsb' (8 * k) 8)

/-- The untyped operand in each addressing mode (rules R41, R47, R70, R71). -/
def Obligations.UntypedOperand : Prop :=
  ∀ s : State,
    (∀ data : Half, ∃ b, s.valZ (.imm data) = .ok b ∧ b.toNat = data.toNat) ∧
    (∀ r : Reg, s.valZ (.reg r) = .ok (s.readReg r)) ∧
    (∀ m : Half,
      (m.toNat + 4 ≤ s.cfg.memSize → ∃ b : Word, s.valZ (.mem m) = .ok b ∧ b.toNat < 2 ^ 32 ∧
        ∀ k, k < 4 → b.extractLsb' (8 * k) 8 = s.byteAt (m.toNat + k)) ∧
      (s.cfg.memSize < m.toNat + 4 → s.valZ (.mem m) = .error (.memRange m.toNat))) ∧
    (∀ (r : Reg) (n : BitVec 24), ∃ a : Word,
      (a.toNat : Int) = ((s.readReg r).toNat + n.toInt) % 2 ^ 64 ∧
      (a.toNat + 4 ≤ s.cfg.memSize → ∃ b : Word, s.valZ (.ind r n) = .ok b ∧ b.toNat < 2 ^ 32 ∧
        ∀ k, k < 4 → b.extractLsb' (8 * k) 8 = s.byteAt (a.toNat + k)) ∧
      (s.cfg.memSize < a.toNat + 4 → s.valZ (.ind r n) = .error (.memRange a.toNat)))

/-- The operand under a data type: a register, as source or as operand, gives its low bits, a 32-bit
operand is widened by the type's signedness (rule R81); a double has no 32-bit operand. -/
def Obligations.TypedOperand : Prop :=
  ∀ (s : State) (v : Value),
    (∀ (r : Reg) (dt : DType), (s.regT r dt).toNat = (s.readReg r).toNat % 2 ^ typeWidth dt) ∧
    (∀ b : Word, s.opRead v = .ok (.full b) →
      (∀ dt : DType, s.valT v dt = .ok (b.setWidth (typeWidth dt)))) ∧
    (∀ b : Half, s.opRead v = .ok (.half b) →
      s.valT v .hu = .ok b ∧ s.valT v .hs = .ok b ∧ s.valT v .f = .ok b ∧
      (∃ x : Word, s.valT v .u = .ok x ∧ x.toNat = b.toNat) ∧
      (∃ x : Word, s.valT v .s = .ok x ∧ x.toInt = b.toInt) ∧
      ∀ c rd rs, (Instr.add c .d rd rs v).wf = false ∧ (Instr.sub c .d rd rs v).wf = false ∧
        (Instr.mul c .d rd rs v).wf = false ∧ (Instr.div c .d rd rs v).wf = false ∧
        (Instr.idiv c .d rd rs v).wf = false ∧ (Instr.cmp c .d rs v).wf = false) ∧
    (∀ r dt, s.opRead v = .error r → s.valT v dt = .error r) ∧
    typeWidth .hu = 32 ∧ typeWidth .hs = 32 ∧ typeWidth .f = 32 ∧
    typeWidth .u = 64 ∧ typeWidth .s = 64 ∧ typeWidth .d = 64

/-- `Place` (rule R127). -/
def Obligations.PlacementByType : Prop :=
  (∀ r : Half, (placeResult .hu r).toNat = r.toNat ∧ (placeResult .f r).toNat = r.toNat ∧
    (placeResult .hs r).toInt = r.toInt) ∧
  (∀ r : Word, placeResult .u r = r ∧ placeResult .s r = r ∧ placeResult .d r = r)

/-- An operand that cannot be read takes its fault, and nothing else happens (rules R301, R304, R305). -/
def Obligations.OperandFaultIsPrecise : Prop :=
  ∀ (s : State) (c : Cond) (v : Value) (r : FaultReason), s.Passes c → s.opRead v = .error r →
    ∃ t, TookFault s t r ∧
      (∀ rd, exec (.load c rd v) s = .next t ∧ exec (.loadu c rd v) s = .next t) ∧
      (∀ dt rd rs, exec (.add c dt rd rs v) s = .next t ∧ exec (.sub c dt rd rs v) s = .next t ∧
        exec (.mul c dt rd rs v) s = .next t ∧ exec (.div c dt rd rs v) s = .next t ∧
        exec (.idiv c dt rd rs v) s = .next t) ∧
      (∀ dt rs, exec (.cmp c dt rs v) s = .next t) ∧
      (∀ rd rs, exec (.and c rd rs v) s = .next t ∧ exec (.or c rd rs v) s = .next t ∧
        exec (.xor c rd rs v) s = .next t ∧ exec (.shr c rd rs v) s = .next t ∧
        exec (.shl c rd rs v) s = .next t) ∧
      exec (.push c v) s = .next t ∧ exec (.call c v) s = .next t ∧
      exec (.syscall c v) s = .next t

/-! ## Data transfer -/

/-- `load` (rule R100): the whole register from the zero-extended operand. -/
def Obligations.LoadResult : Prop :=
  ∀ (s : State) (c : Cond) (rd : Reg) (v : Value) (b : Word), s.Passes c → s.valZ v = .ok b →
    ∃ t, exec (.load c rd v) s = .next t ∧ WroteDest s t rd b

/-- `loadu` (rule R101): bits 63:32 from the low 32 bits of the operand, bits 31:0 kept. -/
def Obligations.LoaduResult : Prop :=
  ∀ (s : State) (c : Cond) (rd : Reg) (v : Value) (b : Word), s.Passes c → s.valZ v = .ok b →
    ∃ (t : State) (x : Word), exec (.loadu c rd v) s = .next t ∧ WroteDest s t rd x ∧
      x.toNat = b.toNat % 2 ^ 32 * 2 ^ 32 + (s.readReg rd).toNat % 2 ^ 32

/-- `store` (rule R102) and the place of its operand in each mode (rule R82): 4 bytes to a memory place in
range, else a fault; all 64 bits to a register place, which `$zero` discards; no zero-flag update in
either. -/
def Obligations.StoreResult : Prop :=
  (∀ (s : State) (m : Half), ∃ a : Word, s.loc (.mem m) = .mem a ∧ a.toNat = m.toNat) ∧
  (∀ (s : State) (r : Reg), s.loc (.reg r) = .reg r) ∧
  (∀ (s : State) (r : Reg) (n : BitVec 24), ∃ a : Word, s.loc (.ind r n) = .mem a ∧
    (a.toNat : Int) = ((s.readReg r).toNat + n.toInt) % 2 ^ 64) ∧
  (∀ (s : State) (c : Cond) (rs : Reg) (a : Addr) (addr : Word), s.Passes c → s.MemOk →
    s.loc a = .mem addr →
    (addr.toNat + 4 ≤ s.cfg.memSize →
      ∃ t, exec (.store c rs a) s = .next t ∧
        (∀ k, k < 4 → t.byteAt (addr.toNat + k) = (s.readReg rs).extractLsb' (8 * k) 8) ∧
        SameMemBut addr.toNat 4 s t ∧ SameRegsBut [] s t ∧ SameHost s t ∧
        t.lastFault = s.lastFault) ∧
    (s.cfg.memSize < addr.toNat + 4 →
      ∃ t, exec (.store c rs a) s = .next t ∧ TookFault s t (.memRange addr.toNat))) ∧
  (∀ (s : State) (c : Cond) (rs r : Reg), s.Passes c →
    ∃ t, exec (.store c rs (.reg r)) s = .next t ∧ (r ≠ .zero → t.readReg r = s.readReg rs) ∧
      SameRegsBut [r] s t ∧ (r = .zero → SameRegsBut [] s t) ∧ SameMem s t ∧ SameHost s t ∧
      t.lastFault = s.lastFault)

/-! ## Arithmetic -/

/-- `add`, `sub`, `mul` on the integer types: the exact result narrowed to the width of the type and
placed (rules R120 to R124, R127). -/
def Obligations.IntegerAddSubMul : Prop :=
  ∀ (s : State) (c : Cond) (dt : DType) (rd rs : Reg) (v : Value) (b : BitVec (typeWidth dt)),
    s.Passes c → IsInteger dt → s.valT v dt = .ok b →
    (∃ t, exec (.add c dt rd rs v) s = .next t ∧
      WroteDest s t rd (placeResult dt (BitVec.ofInt _ ((s.regT rs dt).toInt + b.toInt)))) ∧
    (∃ t, exec (.sub c dt rd rs v) s = .next t ∧
      WroteDest s t rd (placeResult dt (BitVec.ofInt _ ((s.regT rs dt).toInt - b.toInt)))) ∧
    (∃ t, exec (.mul c dt rd rs v) s = .next t ∧
      WroteDest s t rd (placeResult dt (BitVec.ofInt _ ((s.regT rs dt).toInt * b.toInt))))

/-- `div` and `idiv` on the unsigned types: the floor of the exact quotient (rules R125, R126). -/
def Obligations.UnsignedDivision : Prop :=
  ∀ (s : State) (c : Cond) (dt : DType) (rd rs : Reg) (v : Value) (b : BitVec (typeWidth dt)),
    s.Passes c → dt = .hu ∨ dt = .u → s.valT v dt = .ok b → b ≠ 0 →
    ∃ t, exec (.div c dt rd rs v) s = .next t ∧ exec (.idiv c dt rd rs v) s = .next t ∧
      WroteDest s t rd
        (placeResult dt (BitVec.ofInt _ ⌊((s.regT rs dt).toNat : ℚ) / (b.toNat : ℚ)⌋))

/-- `idiv` on the signed types, and `div` with `INT_DIV` = floor: the floor of the exact quotient, modulo
`2^W` (rules R125, R126, R129). -/
def Obligations.SignedFloorDivision : Prop :=
  ∀ (s : State) (c : Cond) (dt : DType) (rd rs : Reg) (v : Value) (b : BitVec (typeWidth dt)),
    s.Passes c → dt = .hs ∨ dt = .s → s.valT v dt = .ok b → b ≠ 0 →
    ∃ t, exec (.idiv c dt rd rs v) s = .next t ∧
      (s.cfg.intDiv = .floor → exec (.div c dt rd rs v) s = .next t) ∧
      WroteDest s t rd
        (placeResult dt (BitVec.ofInt _ ⌊((s.regT rs dt).toInt : ℚ) / (b.toInt : ℚ)⌋))

/-- `div` on the signed types with the alternative `INT_DIV` = truncate: the exact quotient rounded toward
zero. The alternative is the model's own (log entry 11). -/
def Obligations.SignedTruncatingDivision : Prop :=
  ∀ (s : State) (c : Cond) (dt : DType) (rd rs : Reg) (v : Value) (b : BitVec (typeWidth dt)),
    s.Passes c → dt = .hs ∨ dt = .s → s.valT v dt = .ok b → b ≠ 0 → s.cfg.intDiv = .truncate →
    ∃ (t : State) (q : Int), exec (.div c dt rd rs v) s = .next t ∧
      WroteDest s t rd (placeResult dt (BitVec.ofInt _ q)) ∧
      (0 ≤ ((s.regT rs dt).toInt : ℚ) / (b.toInt : ℚ) →
        q = ⌊((s.regT rs dt).toInt : ℚ) / (b.toInt : ℚ)⌋) ∧
      (((s.regT rs dt).toInt : ℚ) / (b.toInt : ℚ) < 0 →
        q = ⌈((s.regT rs dt).toInt : ℚ) / (b.toInt : ℚ)⌉)

/-- An integer division by a divisor whose `W` bits are 0 faults (rule R128). -/
def Obligations.DivisionByZeroFaults : Prop :=
  ∀ (s : State) (c : Cond) (dt : DType) (rd rs : Reg) (v : Value), s.Passes c → IsInteger dt →
    s.valT v dt = .ok 0 →
    ∃ t, exec (.div c dt rd rs v) s = .next t ∧ exec (.idiv c dt rd rs v) s = .next t ∧
      TookFault s t .divideByZero

/-- The 32-bit float type: the uninterpreted functions on the low halves, the result zero-extended,
`idiv` a 64-bit integer; no fault, a zero divisor included (rules R128, R130 to R132). -/
def Obligations.FloatArithmetic : Prop :=
  ∀ (s : State) (c : Cond) (rd rs : Reg) (v : Value) (b : Half), s.Passes c → s.valT v .f = .ok b →
    (∃ t, exec (.add c .f rd rs v) s = .next t ∧
      WroteDest s t rd ((Config.fadd32 ((s.readReg rs).extractLsb' 0 32) b).setWidth 64)) ∧
    (∃ t, exec (.sub c .f rd rs v) s = .next t ∧
      WroteDest s t rd ((Config.fsub32 ((s.readReg rs).extractLsb' 0 32) b).setWidth 64)) ∧
    (∃ t, exec (.mul c .f rd rs v) s = .next t ∧
      WroteDest s t rd ((Config.fmul32 ((s.readReg rs).extractLsb' 0 32) b).setWidth 64)) ∧
    (∃ t, exec (.div c .f rd rs v) s = .next t ∧
      WroteDest s t rd ((Config.fdiv32 ((s.readReg rs).extractLsb' 0 32) b).setWidth 64)) ∧
    (∃ t, exec (.idiv c .f rd rs v) s = .next t ∧
      WroteDest s t rd (Config.fidiv32 ((s.readReg rs).extractLsb' 0 32) b))

/-- The 64-bit double type, operands in registers (rules R130 to R132). -/
def Obligations.DoubleArithmetic : Prop :=
  ∀ (s : State) (c : Cond) (rd rs rv : Reg), s.Passes c →
    (∃ t, exec (.add c .d rd rs (.reg rv)) s = .next t ∧
      WroteDest s t rd (Config.fadd64 (s.readReg rs) (s.readReg rv))) ∧
    (∃ t, exec (.sub c .d rd rs (.reg rv)) s = .next t ∧
      WroteDest s t rd (Config.fsub64 (s.readReg rs) (s.readReg rv))) ∧
    (∃ t, exec (.mul c .d rd rs (.reg rv)) s = .next t ∧
      WroteDest s t rd (Config.fmul64 (s.readReg rs) (s.readReg rv))) ∧
    (∃ t, exec (.div c .d rd rs (.reg rv)) s = .next t ∧
      WroteDest s t rd (Config.fdiv64 (s.readReg rs) (s.readReg rv))) ∧
    (∃ t, exec (.idiv c .d rd rs (.reg rv)) s = .next t ∧
      WroteDest s t rd (Config.fidiv64 (s.readReg rs) (s.readReg rv)))

/-! ## Compare -/

/-- `cmp` writes the comparison code and takes `Z` from the value; every other flag bit, every other
register, memory and the host stay (rules R150 to R152). -/
def Obligations.CompareResult : Prop :=
  ∀ (s : State) (c : Cond) (dt : DType) (rs : Reg) (v : Value) (b : BitVec (typeWidth dt)),
    s.Passes c → s.valT v dt = .ok b →
    ∃ t, exec (.cmp c dt rs v) s = .next t ∧
      (dt = .hu ∨ dt = .u → flagCmp (t.readReg .flag) =
        if (s.regT rs dt).toNat < b.toNat then 0b010 else
        if (s.regT rs dt).toNat = b.toNat then 0b001 else 0b110) ∧
      (dt = .hs ∨ dt = .s → flagCmp (t.readReg .flag) =
        if (s.regT rs dt).toInt < b.toInt then 0b010 else
        if (s.regT rs dt).toInt = b.toInt then 0b001 else 0b110) ∧
      flagZ (t.readReg .flag) = decide (b.toNat = 0) ∧
      (∀ i, 4 ≤ i → (t.readReg .flag).getLsbD i = (s.readReg .flag).getLsbD i) ∧
      SameRegsBut [.flag] s t ∧ SameMem s t ∧ SameHost s t ∧ t.lastFault = s.lastFault

/-- `cmp` on the floating-point types: the code of the relation `FCMP` gives (rule R151). -/
def Obligations.FloatCompareCode : Prop :=
  ∀ (s : State) (c : Cond) (rs : Reg) (v : Value), s.Passes c →
    (∀ b : Half, s.valT v .f = .ok b → ∃ t, exec (.cmp c .f rs v) s = .next t ∧
      flagCmp (t.readReg .flag) =
        match Config.fcmp32 ((s.readReg rs).extractLsb' 0 32) b with
        | .less => 0b010
        | .equal => 0b001
        | .greater => 0b110
        | .unordered => 0b000) ∧
    (∀ rv, v = .reg rv → ∃ t, exec (.cmp c .d rs v) s = .next t ∧
      flagCmp (t.readReg .flag) =
        match Config.fcmp64 (s.readReg rs) (s.readReg rv) with
        | .less => 0b010
        | .equal => 0b001
        | .greater => 0b110
        | .unordered => 0b000)

/-! ## Logical and shifts -/

/-- `not`, `and`, `or`, `xor`, bit by bit on all 64 bits (rules R170 to R174). -/
def Obligations.BitwiseResults : Prop :=
  (∀ (s : State) (c : Cond) (rd rs : Reg), s.Passes c →
    ∃ (t : State) (x : Word), exec (.not c rd rs) s = .next t ∧ WroteDest s t rd x ∧
      ∀ i, i < 64 → x.getLsbD i = !(s.readReg rs).getLsbD i) ∧
  ∀ (s : State) (c : Cond) (rd rs : Reg) (v : Value) (b : Word), s.Passes c → s.valZ v = .ok b →
    (∃ (t : State) (x : Word), exec (.and c rd rs v) s = .next t ∧ WroteDest s t rd x ∧
      ∀ i, x.getLsbD i = ((s.readReg rs).getLsbD i && b.getLsbD i)) ∧
    (∃ (t : State) (x : Word), exec (.or c rd rs v) s = .next t ∧ WroteDest s t rd x ∧
      ∀ i, x.getLsbD i = ((s.readReg rs).getLsbD i || b.getLsbD i)) ∧
    (∃ (t : State) (x : Word), exec (.xor c rd rs v) s = .next t ∧ WroteDest s t rd x ∧
      ∀ i, x.getLsbD i = ((s.readReg rs).getLsbD i ^^ b.getLsbD i))

/-- `shr` and `shl` by the whole 64-bit amount: the mathematical quotient and product by the power of
two, the latter modulo `2^64`; an amount of 64 or more gives 0 (rules R170, R175, R176). -/
def Obligations.ShiftResults : Prop :=
  ∀ (s : State) (c : Cond) (rd rs : Reg) (v : Value) (b : Word), s.Passes c → s.valZ v = .ok b →
    (∃ (t : State) (x : Word), exec (.shr c rd rs v) s = .next t ∧ WroteDest s t rd x ∧
      x.toNat = (s.readReg rs).toNat / 2 ^ b.toNat ∧ (64 ≤ b.toNat → x = 0)) ∧
    (∃ (t : State) (x : Word), exec (.shl c rd rs v) s = .next t ∧ WroteDest s t rd x ∧
      x.toNat = (s.readReg rs).toNat * 2 ^ b.toNat % 2 ^ 64 ∧ (64 ≤ b.toNat → x = 0))

/-! ## Stack and functions -/

/-- `push` (rule R190): the low half of the operand at the old `$sp`, `$sp` up by 4, no flag; out of range,
a fault with `$sp` unmoved. -/
def Obligations.PushResult : Prop :=
  ∀ (s : State) (c : Cond) (v : Value) (b : Word), s.Passes c → s.MemOk → s.valZ v = .ok b →
    ((s.readReg .sp).toNat + 4 ≤ s.cfg.memSize →
      ∃ t, exec (.push c v) s = .next t ∧
        (∀ k, k < 4 → t.byteAt ((s.readReg .sp).toNat + k) = b.extractLsb' (8 * k) 8) ∧
        SameMemBut (s.readReg .sp).toNat 4 s t ∧ t.readReg .sp = s.readReg .sp + 4 ∧
        SameRegsBut [.sp] s t ∧ SameHost s t ∧ t.lastFault = s.lastFault) ∧
    (s.cfg.memSize < (s.readReg .sp).toNat + 4 →
      ∃ t, exec (.push c v) s = .next t ∧ TookFault s t (.memRange (s.readReg .sp).toNat))

/-- `call` (rules R210, R212): the 80 bytes of the frame, the new `$fp`, `$sp` and `$ip`, no flag; out of
range, a fault with nothing written. -/
def Obligations.CallResult : Prop :=
  ∀ (s : State) (c : Cond) (v : Value) (target : Word), s.Passes c → s.MemOk →
    s.valZ v = .ok target →
    ((s.readReg .sp).toNat + 80 ≤ s.cfg.memSize →
      ∃ t, exec (.call c v) s = .next t ∧
        (∀ k, k < 8 → t.byteAt ((s.readReg .sp).toNat + k) =
          (s.readReg .fp).extractLsb' (8 * k) 8) ∧
        (∀ k, k < 8 → t.byteAt ((s.readReg .sp).toNat + 8 + k) =
          (s.readReg .ip).extractLsb' (8 * k) 8) ∧
        (∀ (j : Fin 8) k, k < 8 → t.byteAt ((s.readReg .sp).toNat + 16 + 8 * j.val + k) =
          (s.readReg (.s j)).extractLsb' (8 * k) 8) ∧
        SameMemBut (s.readReg .sp).toNat 80 s t ∧
        t.readReg .fp = s.readReg .sp ∧ t.readReg .sp = s.readReg .sp + 80 ∧
        t.readReg .ip = target ∧ SameRegsBut [.fp, .sp, .ip] s t ∧ SameHost s t ∧
        t.lastFault = s.lastFault) ∧
    (s.cfg.memSize < (s.readReg .sp).toNat + 80 →
      ∃ t, exec (.call c v) s = .next t ∧ TookFault s t (.memRange (s.readReg .sp).toNat))

/-- `ret` (rules R211, R212): the frame found through `$fp`, `$s1` to `$s8`, `$ip` and `$fp` from it, `$sp`
below the arguments the count tells of; no flag, no memory; out of range, a fault. -/
def Obligations.RetResult : Prop :=
  ∀ (s : State) (c : Cond), s.Passes c →
    (∀ n : Half, s.memRead (s.readReg .fp - 4) 4 = .ok n →
      (s.readReg .fp).toNat + 80 ≤ s.cfg.memSize →
      ∃ t, exec (.ret c) s = .next t ∧
        (∀ k, k < 8 → (t.readReg .fp).extractLsb' (8 * k) 8 =
          s.byteAt ((s.readReg .fp).toNat + k)) ∧
        (∀ k, k < 8 → (t.readReg .ip).extractLsb' (8 * k) 8 =
          s.byteAt ((s.readReg .fp).toNat + 8 + k)) ∧
        (∀ (j : Fin 8) k, k < 8 → (t.readReg (.s j)).extractLsb' (8 * k) 8 =
          s.byteAt ((s.readReg .fp).toNat + 16 + 8 * j.val + k)) ∧
        ((t.readReg .sp).toNat : Int) =
          ((s.readReg .fp).toNat - 4 * ((n.toNat : Int) + 1)) % 2 ^ 64 ∧
        (∀ r, r ≠ .fp → r ≠ .ip → r ≠ .sp → (∀ j, r ≠ .s j) → t.readReg r = s.readReg r) ∧
        SameMem s t ∧ SameHost s t ∧ t.lastFault = s.lastFault) ∧
    (∀ r, s.memRead (s.readReg .fp - 4) 4 = .error r →
      ∃ t, exec (.ret c) s = .next t ∧ TookFault s t r) ∧
    (∀ n : Half, s.memRead (s.readReg .fp - 4) 4 = .ok n →
      s.cfg.memSize < (s.readReg .fp).toNat + 80 →
      ∃ t, exec (.ret c) s = .next t ∧ TookFault s t (.memRange (s.readReg .fp).toNat))

/-- The calling convention (rules R22, R211 to R213, R219): after a `call`, whatever the callee did, if
`$fp`, the frame and the count below it are intact then `ret` goes back to the instruction after the
`call`, restores `$fp` and every preserved register, and leaves `$sp` below the arguments; `$ret`, the
flags and `$r1` to `$r16` are the callee's. -/
def Obligations.CallThenRetRestores : Prop :=
  ∀ (s t u : State) (c c' : Cond) (v : Value) (target : Word) (n : Half),
    s.Passes c → s.MemOk → s.valZ v = .ok target → (s.readReg .sp).toNat + 80 ≤ s.cfg.memSize →
    exec (.call c v) s = .next t →
    u.cfg = t.cfg → u.readReg .fp = t.readReg .fp →
    (∀ a, (s.readReg .sp).toNat ≤ a → a < (s.readReg .sp).toNat + 80 → u.byteAt a = t.byteAt a) →
    u.memRead (s.readReg .sp - 4) 4 = .ok n → u.Passes c' →
    ∃ w, exec (.ret c') u = .next w ∧
      w.readReg .ip = s.readReg .ip ∧ w.readReg .fp = s.readReg .fp ∧
      w.readReg .sp = s.readReg .sp - 4 * (n.setWidth 64 + 1) ∧
      (∀ j, w.readReg (.s j) = s.readReg (.s j)) ∧
      (∀ j, w.readReg (.r j) = u.readReg (.r j)) ∧
      w.readReg .ret = u.readReg .ret ∧ w.readReg .flag = u.readReg .flag ∧ SameMem u w

/-! ## System calls -/

/-- Services 1 to 4 append one event with the bits of `$r1` they are given, and change nothing else (rules
R218, R250 to R255). -/
def Obligations.PrintServices : Prop :=
  ∀ (s : State) (c : Cond) (v : Value) (k : Word), s.Passes c → s.valZ v = .ok k →
    k.toNat = 1 ∨ k.toNat = 2 ∨ k.toNat = 3 ∨ k.toNat = 4 →
    ∃ (t : State) (e : OutputEvent), exec (.syscall c v) s = .next t ∧ t.output = s.output ++ [e] ∧
      (k.toNat = 1 → e = OutputEvent.printInt (s.readReg (.r 0))) ∧
      (k.toNat = 2 → e = OutputEvent.printFloat ((s.readReg (.r 0)).extractLsb' 0 32)) ∧
      (k.toNat = 3 → e = OutputEvent.printDouble (s.readReg (.r 0))) ∧
      (k.toNat = 4 → e = OutputEvent.printChar ((s.readReg (.r 0)).extractLsb' 0 8)) ∧
      SameRegsBut [] s t ∧ SameMem s t ∧ t.input = s.input ∧ t.cfg = s.cfg ∧
      t.lastFault = s.lastFault

/-- Service 5 appends the bytes before the first zero byte (rule R256); with no zero byte before the end of
memory it faults without an event. That it faults at the end of a memory of `2^64` bytes too, where the
rule's address would wrap to 0, is the model's own choice (log entry 13). -/
def Obligations.PrintStringService : Prop :=
  ∀ (s : State) (c : Cond) (v : Value), s.Passes c → s.valZ v = .ok 5 →
    (∀ n : Nat, (s.readReg (.r 0)).toNat + n < s.cfg.memSize →
      (∀ k, k < n → s.byteAt ((s.readReg (.r 0)).toNat + k) ≠ 0) →
      s.byteAt ((s.readReg (.r 0)).toNat + n) = 0 →
      ∃ t, exec (.syscall c v) s = .next t ∧
        t.output = s.output ++ [OutputEvent.printString
          ((List.range n).map fun k => s.byteAt ((s.readReg (.r 0)).toNat + k))] ∧
        SameRegsBut [] s t ∧ SameMem s t ∧ t.input = s.input ∧ t.cfg = s.cfg ∧
        t.lastFault = s.lastFault) ∧
    ((∀ a, (s.readReg (.r 0)).toNat ≤ a → a < s.cfg.memSize → s.byteAt a ≠ 0) →
      ∃ t a, exec (.syscall c v) s = .next t ∧ TookFault s t (.memRange a))

/-- Services 6 to 9 put the host's answer in `$ret` and change nothing else (rules R257 to R260). The
pending answers are the model's form of the oracle (log entry 8). -/
def Obligations.ReadServices : Prop :=
  ∀ (s : State) (c : Cond) (v : Value) (k : Word) (rest : List InputAnswer), s.Passes c →
    s.valZ v = .ok k →
    ∀ x : Word,
      ((k.toNat = 6 ∧ s.input = .int x :: rest) ∨
       (k.toNat = 7 ∧ ∃ y : Half, s.input = .float y :: rest ∧ x.toNat = y.toNat) ∨
       (k.toNat = 8 ∧ s.input = .double x :: rest) ∨
       (k.toNat = 9 ∧ ∃ y : Byte, s.input = .char y :: rest ∧ x.toNat = y.toNat)) →
      ∃ t, exec (.syscall c v) s = .next t ∧ t.readReg .ret = x ∧ SameRegsBut [.ret] s t ∧
        SameMem s t ∧ t.input = rest ∧ t.output = s.output ∧ t.cfg = s.cfg ∧
        t.lastFault = s.lastFault

/-- A `read_*` service the host has no answer for is stuck (rule R251). That an answer of another kind, or a
string with a zero byte in it, is no answer is the model's own reading (log entry 8). -/
def Obligations.ReadWithoutAnswerIsStuck : Prop :=
  ∀ (s : State) (c : Cond) (v : Value) (k : Word), s.Passes c → s.valZ v = .ok k →
    6 ≤ k.toNat → k.toNat ≤ 10 →
    (k.toNat = 6 → ∀ x rest, s.input ≠ .int x :: rest) →
    (k.toNat = 7 → ∀ x rest, s.input ≠ .float x :: rest) →
    (k.toNat = 8 → ∀ x rest, s.input ≠ .double x :: rest) →
    (k.toNat = 9 → ∀ x rest, s.input ≠ .char x :: rest) →
    (k.toNat = 10 → ∀ bs rest, s.input = .string bs :: rest → 0 ∈ bs) →
    exec (.syscall c v) s = .fault .noInput

/-- Service 10 (rule R261): with `outside`, up to `m` characters and the zero; with `inside`, up to `m - 1`
and the zero, nothing when `m` = 0; a buffer out of range faults and nothing is written. Three clauses are
the model's own choice: the oracle as a list of pending answers, one taken by each call (log entry 8); a
call that faults keeps its answer pending (log entry 9); with `inside` and `m` = 0 the answer is taken and
no range is checked (log entry 17). -/
def Obligations.ReadStringService : Prop :=
  ∀ (s : State) (c : Cond) (v : Value) (bs stored : List Byte) (rest : List InputAnswer),
    s.Passes c → s.MemOk → s.valZ v = .ok 10 → s.input = .string bs :: rest → (∀ b ∈ bs, b ≠ 0) →
    ((s.cfg.readStringTerm = .outside ∧ stored = bs.take (s.readReg (.r 1)).toNat ++ [0]) ∨
     (s.cfg.readStringTerm = .inside ∧ s.readReg (.r 1) ≠ 0 ∧
        stored = bs.take ((s.readReg (.r 1)).toNat - 1) ++ [0]) ∨
     (s.cfg.readStringTerm = .inside ∧ s.readReg (.r 1) = 0 ∧ stored = [])) →
    ((stored = [] ∨ (s.readReg (.r 0)).toNat + stored.length ≤ s.cfg.memSize) →
      ∃ t, exec (.syscall c v) s = .next t ∧
        (∀ k (h : k < stored.length), t.byteAt ((s.readReg (.r 0)).toNat + k) = stored[k]) ∧
        SameMemBut (s.readReg (.r 0)).toNat stored.length s t ∧ SameRegsBut [] s t ∧
        t.input = rest ∧ t.output = s.output ∧ t.cfg = s.cfg ∧ t.lastFault = s.lastFault) ∧
    (stored ≠ [] → s.cfg.memSize < (s.readReg (.r 0)).toNat + stored.length →
      ∃ t, exec (.syscall c v) s = .next t ∧ TookFault s t (.memRange (s.readReg (.r 0)).toNat))

/-- Services 11 and 12 halt; `exit2` copies `$r1` to `$ret`; `ERR` and everything else stay (rules R262,
R263). -/
def Obligations.ExitServices : Prop :=
  ∀ (s : State) (c : Cond) (v : Value) (k : Word), s.Passes c → s.valZ v = .ok k →
    k.toNat = 11 ∨ k.toNat = 12 →
    ∃ t, exec (.syscall c v) s = .next t ∧ t.Halted ∧
      (∀ i, i ≠ 4 → (t.readReg .flag).getLsbD i = (s.readReg .flag).getLsbD i) ∧
      (k.toNat = 11 → t.exitCode = s.readReg .ret) ∧
      (k.toNat = 12 → t.exitCode = s.readReg (.r 0)) ∧
      SameRegsBut [.flag, .ret] s t ∧ SameMem s t ∧ SameHost s t ∧ t.lastFault = s.lastFault

/-- Any other service number faults (rule R264). -/
def Obligations.UnknownServiceFaults : Prop :=
  ∀ (s : State) (c : Cond) (v : Value) (k : Word), s.Passes c → s.valZ v = .ok k →
    k.toNat = 0 ∨ 12 < k.toNat →
    ∃ t, exec (.syscall c v) s = .next t ∧ TookFault s t .badSyscall

/-! ## `nop`, reset, the invariant -/

/-- `nop` changes nothing; a step over a zero word moves `$ip` by 8 and nothing else (rule R240). -/
def Obligations.NopDoesNothing : Prop :=
  (∀ s : State, exec .nop s = .next s) ∧
  (∀ s : State, ¬ s.Halted → s.FetchInRange → s.bytesAtIp = List.replicate 8 0 →
    ∃ t, step s = .next t ∧ t.readReg .ip = s.readReg .ip + 8 ∧ OnlyIpMoved s t)

/-- What reset leaves, where the spec gives a value, for every configuration (rule R330). -/
def Obligations.ResetValues : Prop :=
  ∀ cfg : Config,
    (State.resetWith cfg).readReg .ip = cfg.entry ∧
    (State.resetWith cfg).readReg .sp = cfg.stackBase ∧
    (State.resetWith cfg).readReg .fp = cfg.stackBase ∧
    (State.resetWith cfg).readReg .flag = 0x0000000000000010 ∧
    (State.resetWith cfg).readReg .zero = 0 ∧
    (State.resetWith cfg).output = [] ∧
    ¬ (State.resetWith cfg).Halted ∧ State.reset = State.resetWith Config.default ∧
    Config.default.entry = 0

/-- The reset state meets the invariant of memory. -/
def Obligations.ResetMemoryIsCanonical : Prop := ∀ cfg : Config, (State.resetWith cfg).MemOk

/-- Every step keeps memory in canonical form and inside `MEM_SIZE` (rules R40, R42). -/
def Obligations.StepKeepsMemoryCanonical : Prop :=
  ∀ s t : State, s.MemOk → step s = .next t → t.MemOk

/-! ## Rules about the whole machine -/

/-- `$zero` reads as 0, and a write to it is discarded, by the one operation that writes a register, by
every instruction with a destination and by `store` (rule R17). -/
def Obligations.ZeroRegisterDiscardsWrites : Prop :=
  (∀ s : State, s.readReg .zero = 0) ∧ (∀ (s : State) (v : Word), s.writeReg .zero v = s) ∧
  (∀ (i : Instr) (s t : State), i.zDest = some .zero → exec i s = .next t →
    SameRegsBut [.flag] s t ∧ SameMem s t) ∧
  (∀ (s : State) (c : Cond) (rs : Reg), exec (.store c rs (.reg .zero)) s = .next s)

/-- The configuration is a parameter: no step changes it. -/
def Obligations.StepKeepsConfiguration : Prop :=
  ∀ s t : State, step s = .next t → t.cfg = s.cfg

/-- Only `store`, `push`, `call` and the service `read_string` write memory (rule R47). -/
def Obligations.OnlyWritersChangeMemory : Prop :=
  ∀ (i : Instr) (s t : State), exec i s = .next t →
    (∀ c rs a, i ≠ .store c rs a) → (∀ c v, i ≠ .push c v) → (∀ c v, i ≠ .call c v) →
    (∀ c v, i = .syscall c v → s.valZ v ≠ .ok 10) →
    SameMem s t

/-- A program cannot read back what it has printed: a step does the same whatever was printed before, and
appends at most one event (rules R31, R251). -/
def Obligations.OutputIsWriteOnly : Prop :=
  ∀ (s t : State) (o : List OutputEvent), step s = .next t →
    ∃ es : List OutputEvent, es.length ≤ 1 ∧ t.output = s.output ++ es ∧
      step { s with output := o } = .next { t with output := o ++ es }

/-- The ghost record of the last fault is outside the architecture: no step depends on it (rule R300). -/
def Obligations.GhostRecordIsNeverRead : Prop :=
  ∀ (s t : State) (g : Option FaultReason), step s = .next t →
    ∃ g', step { s with lastFault := g } = .next { t with lastFault := g' } ∧
      (g' = t.lastFault ∨ (g' = g ∧ t.lastFault = s.lastFault))

/-- `ERR` changes by a fault or by an ordinary write to `$flag` only (rules R15, R24). -/
def Obligations.ErrorBitCauses : Prop :=
  ∀ s t : State, step s = .next t → flagErr (t.readReg .flag) ≠ flagErr (s.readReg .flag) →
    (∃ r, TookFault s t r ∨ TookFault s.advance t r) ∨
    ∃ i, decodeBytes s.bytesAtIp = .ok i ∧ i.namesFlag

/-- The four ways to halt: a fault, an ordinary write to `$flag`, `exit`, `exit2` (rules R16, R302). -/
def Obligations.HaltCauses : Prop :=
  ∀ s t : State, step s = .next t → t.Halted →
    (∃ r, TookFault s t r ∨ TookFault s.advance t r) ∨
    ∃ i, decodeBytes s.bytesAtIp = .ok i ∧
      (i.namesFlag ∨
        ∃ c v, i = .syscall c v ∧ (s.advance.valZ v = .ok 11 ∨ s.advance.valZ v = .ok 12))

/-- The flag bits an instruction keeps (rules R18, R19, R26, R332), where it makes no ordinary write to
`$flag` (rule R24): `Z` unless it has a destination or is `cmp`, the comparison bits unless it is `cmp`,
and always the reserved bits. -/
def Obligations.FlagBitsKept : Prop :=
  ∀ (i : Instr) (s t : State), exec i s = .next t → ¬ i.namesFlag →
    ((∀ c dt rs v, i ≠ .cmp c dt rs v) → flagCmp (t.readReg .flag) = flagCmp (s.readReg .flag)) ∧
    ((∀ c dt rs v, i ≠ .cmp c dt rs v) → i.zDest = none →
      flagZ (t.readReg .flag) = flagZ (s.readReg .flag)) ∧
    ∀ k, 6 ≤ k → (t.readReg .flag).getLsbD k = (s.readReg .flag).getLsbD k

/-- An instruction that does not write `$ip` falls through (rules R27, R155). -/
def Obligations.FallThrough : Prop :=
  ∀ (i : Instr) (s t : State), exec i s = .next t → ¬ i.namesIp → (∀ c v, i ≠ .call c v) →
    (∀ c, i ≠ .ret c) → t.readReg .ip = s.readReg .ip

/-- A `load` to `$ip` is a jump: the target is the next address fetched, `Z` tells whether it is 0, and a
target outside memory faults at the next fetch, not at the jump (rule R155). -/
def Obligations.LoadToIpJumps : Prop :=
  ∀ (s : State) (c : Cond) (v : Value) (target : Word), s.Passes c → ¬ s.Halted →
    s.valZ v = .ok target →
    ∃ t, exec (.load c .ip v) s = .next t ∧ t.readReg .ip = target ∧
      flagZ (t.readReg .flag) = decide (target = 0) ∧ ¬ t.Halted ∧
      (s.cfg.memSize < target.toNat + 8 →
        ∃ u, step t = .next u ∧ TookFault t u (.memRange target.toNat))

/-- A store is seen by every later fetch of the bytes it wrote (rule R52): in any later state in which those
four bytes still stand, whatever else has changed, the word fetched at any address has the stored byte at
every address the store wrote, and memory's byte at every other. -/
def Obligations.StoreIsSeenByFetch : Prop :=
  ∀ (s : State) (c : Cond) (rs : Reg) (a : Addr) (addr : Word), s.Passes c → s.MemOk →
    s.loc a = .mem addr → addr.toNat + 4 ≤ s.cfg.memSize →
    ∃ t, exec (.store c rs a) s = .next t ∧ SameMemBut addr.toNat 4 s t ∧
      ∀ u : State, u.cfg = t.cfg →
        (∀ b, addr.toNat ≤ b → b < addr.toNat + 4 → u.byteAt b = t.byteAt b) → u.FetchInRange →
        ∃ w : Word, u.fetchWord = .ok w ∧ ∀ k, k < 8 →
          w.extractLsb' (8 * k) 8 =
            if addr.toNat ≤ (u.readReg .ip).toNat + k ∧ (u.readReg .ip).toNat + k < addr.toNat + 4 then
              (s.readReg rs).extractLsb' (8 * ((u.readReg .ip).toNat + k - addr.toNat)) 8
            else u.byteAt ((u.readReg .ip).toNat + k)

/-! ## Pseudo-instructions -/

/-- `loadw` (rule R103): after the pair the register holds the constant and `Z` tells whether it is 0. -/
def Obligations.LoadwLoadsConstant : Prop :=
  ∀ (s : State) (cached : Option Nat) (rd : Reg) (k : Word),
    rd ≠ .ip → rd ≠ .zero → rd ≠ .flag →
    ∃ i j t u, expand cached (.loadw rd k) = some ([i, j], cached) ∧
      exec i s = .next t ∧ exec j t = .next u ∧ u.readReg rd = k ∧
      flagZ (u.readReg .flag) = decide (k = 0) ∧ SameRegsBut [rd, .flag] s u

/-- `pushl` then `popl` (rules R191, R193): the constant comes back and `$sp` is as before. -/
def Obligations.PushlThenPopl : Prop :=
  ∀ (s : State) (cached : Option Nat) (rd : Reg) (k : Word), s.MemOk → s.cfg.Sound →
    (s.readReg .sp).toNat + 8 ≤ s.cfg.memSize →
    rd ≠ .ip → rd ≠ .zero → rd ≠ .flag → rd ≠ .sp →
    ∃ p q a b d t u x y z,
      expand cached (.pushl k) = some ([p, q], cached) ∧
      expand cached (.poplReg rd) = some ([a, b, d], cached) ∧
      exec p s = .next t ∧ exec q t = .next u ∧ u.memRead (s.readReg .sp) 8 = .ok k ∧
      u.readReg .sp = s.readReg .sp + 8 ∧
      exec a u = .next x ∧ exec b x = .next y ∧ exec d y = .next z ∧
      z.readReg rd = k ∧ z.readReg .sp = s.readReg .sp

/-- `ldarg` (rules R214, R217), for every offset that fits its 24 bits: it loads the 4 bytes at
`$fp - 4 (1 + n - i)`, modulo `2^64`, zero-extended; an argument outside memory faults. -/
def Obligations.LdargLoadsArgument : Prop :=
  ∀ (s : State) (c : Cond) (rd : Reg) (n i : Nat), s.Passes c → i < n → 1 + n - i ≤ 2 ^ 21 →
    ∃ (ins : Instr) (a : Word), expand (some n) (.ldarg c rd i) = some ([ins], some n) ∧
      (a.toNat : Int) = ((s.readReg .fp).toNat - 4 * (1 + (n : Int) - i)) % 2 ^ 64 ∧
      (a.toNat + 4 ≤ s.cfg.memSize →
        ∃ (t : State) (x : Word), exec ins s = .next t ∧ WroteDest s t rd x ∧ x.toNat < 2 ^ 32 ∧
          ∀ k, k < 4 → x.extractLsb' (8 * k) 8 = s.byteAt (a.toNat + k)) ∧
      (s.cfg.memSize < a.toNat + 4 →
        ∃ t, exec ins s = .next t ∧ TookFault s t (.memRange a.toNat))
end

