-- ==== Sys2Proof/Laws/Encoding.lean ====
section
/-! SUPPORT. The fields of a concatenation, and the round trip of each kind of field: register numbers,
comparison codes, data types, operands. -/

namespace Sys2Proof

/-! ## Fields of a concatenation -/

/-- A field that lies in the high part. -/
theorem extract_high {n m : Nat} (x : BitVec n) (y : BitVec m) (lo len : Nat) (h : m ≤ lo) :
    (x ++ y).extractLsb' lo len = x.extractLsb' (lo - m) len := by
  ext i hi
  simp only [BitVec.getElem_extractLsb', BitVec.getLsbD_append]
  rw [if_neg (by omega), show lo + i - m = lo - m + i by omega]

/-- A field that lies in the low part. -/
theorem extract_low {n m : Nat} (x : BitVec n) (y : BitVec m) (lo len : Nat) (h : lo + len ≤ m) :
    (x ++ y).extractLsb' lo len = y.extractLsb' lo len := by
  ext i hi
  simp only [BitVec.getElem_extractLsb', BitVec.getLsbD_append]
  rw [if_pos (by omega)]

/-- A field that is the whole value. -/
theorem extract_all {n : Nat} (x : BitVec n) : x.extractLsb' 0 n = x := by
  ext i hi
  simp

/-- Two words are equal when their low and high parts are. -/
theorem append_extract {w : Nat} (k : Nat) (hk : k ≤ w) (x : BitVec w) :
    (x.extractLsb' k (w - k) ++ x.extractLsb' 0 k).cast (by omega) = x := by
  ext i hi
  simp only [BitVec.getElem_cast, BitVec.getElem_append, BitVec.getElem_extractLsb']
  split
  · simp [BitVec.getLsbD_eq_getElem hi]
  · rw [show k + (i - k) = i by omega, BitVec.getLsbD_eq_getElem hi]

/-! ## Registers -/

/-- A register's number is below 30 (rule R23). -/
theorem reg_number_lt (r : Reg) : r.number < 30 := by
  cases r <;> simp only [Reg.number] <;> omega

/-- The number of a register names it. -/
theorem reg_ofNumber_number (r : Reg) : Reg.ofNumber r.number = some r := by
  cases r with
  | r k =>
    have : 6 + k.val = k.val + 6 := by omega
    simp [Reg.number, this, Reg.ofNumber]
  | s k =>
    have : 22 + k.val = (k.val + 16) + 6 := by omega
    simp [Reg.number, this, Reg.ofNumber]
  | _ => rfl

/-- The register a number names has that number. -/
theorem reg_number_ofNumber (n : Nat) (r : Reg) (h : Reg.ofNumber n = some r) : r.number = n := by
  unfold Reg.ofNumber at h
  split at h <;> try (cases h; rfl)
  split_ifs at h with h1 h2
  · cases h; simp only [Reg.number]; omega
  · cases h; simp only [Reg.number]; omega

/-- A number names a register exactly when it is below 30 (rule R25). -/
theorem reg_ofNumber_isSome (n : Nat) : (Reg.ofNumber n).isSome ↔ n < 30 := by
  unfold Reg.ofNumber
  split <;> try simp
  split_ifs <;> simp <;> omega

/-- A register field decodes to the register it encodes. -/
theorem decodeReg_encodeReg (r : Reg) : decodeReg (encodeReg r) = .ok r := by
  have h := reg_number_lt r
  have : (encodeReg r).toNat = r.number := by
    simp only [encodeReg, BitVec.toNat_ofNat]
    exact Nat.mod_eq_of_lt (by omega)
  rw [decodeReg, this, reg_ofNumber_number]

/-- A register field that decodes is the field of the register. -/
theorem encodeReg_decodeReg (b : BitVec 8) (r : Reg) (h : decodeReg b = .ok r) : encodeReg r = b := by
  unfold decodeReg at h
  split at h
  · rename_i q hq
    cases h
    rw [encodeReg, reg_number_ofNumber _ _ hq, BitVec.ofNat_toNat, BitVec.setWidth_eq]
  · cases h

/-! ## Codes -/

/-- A comparison code names its suffix. -/
theorem cc_ofCode_code (cc : CC) : CC.ofCode cc.code = cc := by cases cc <;> rfl

/-- The suffix of a code has that code. -/
theorem cc_code_ofCode (b : BitVec 3) : (CC.ofCode b).code = b := by
  revert b
  decide

/-- A data-type field decodes to the type it encodes. -/
theorem decodeType_code (dt : DType) : decodeType dt.code = .ok dt := by cases dt <;> rfl

/-- A data-type field that decodes is the field of the type. -/
theorem code_decodeType (b : BitVec 3) (dt : DType) (h : decodeType b = .ok dt) : dt.code = b := by
  cases dt <;> revert b <;> decide

/-! ## Operands -/

/-- An operand field decodes to the operand it encodes. -/
theorem decodeValue_encodeValue (v : Value) : decodeValue (encodeValue v) = .ok v := by
  have hmode : ∀ (data : BitVec 32) (m : BitVec 2),
      (data ++ m : BitVec 34).extractLsb' 0 2 = m ∧ (data ++ m : BitVec 34).extractLsb' 2 32 = data :=
    fun data m =>
      ⟨(extract_low data m 0 2 (by decide)).trans (extract_all m),
        (extract_high data m 2 32 (by decide)).trans (extract_all data)⟩
  have hdata : ∀ (n : BitVec 24) (b : BitVec 8),
      (n ++ b : BitVec 32).extractLsb' 0 8 = b ∧ (n ++ b : BitVec 32).extractLsb' 8 24 = n :=
    fun n b =>
      ⟨(extract_low n b 0 8 (by decide)).trans (extract_all b),
        (extract_high n b 8 24 (by decide)).trans (extract_all n)⟩
  cases v with
  | imm data =>
    show decodeValue (data ++ 0b00#2 : BitVec 34) = _
    unfold decodeValue
    rw [(hmode data _).1, (hmode data _).2]
    rfl
  | mem data =>
    show decodeValue (data ++ 0b01#2 : BitVec 34) = _
    unfold decodeValue
    rw [(hmode data _).1, (hmode data _).2]
    rfl
  | reg r =>
    show decodeValue ((0#24 ++ encodeReg r : BitVec 32) ++ 0b10#2 : BitVec 34) = _
    unfold decodeValue
    rw [(hmode _ _).1, (hmode _ _).2]
    simp only [(hdata 0#24 (encodeReg r)).1, (hdata 0#24 (encodeReg r)).2, decodeReg_encodeReg]
    rfl
  | ind r n =>
    show decodeValue ((n ++ encodeReg r : BitVec 32) ++ 0b11#2 : BitVec 34) = _
    unfold decodeValue
    rw [(hmode _ _).1, (hmode _ _).2]
    simp only [(hdata n (encodeReg r)).1, (hdata n (encodeReg r)).2, decodeReg_encodeReg]
    rfl

end Sys2Proof
end

