-- ==== Sys2Proof/Laws/Flags.lean ====
section
/-! SUPPORT. The bits of each flag computation: which one changes, and that the others stay. -/

namespace Sys2Proof.Machine

/-- Bit 3 is the new `Z`, the rest stays. -/
theorem withZ_bit (w : Word) (z : Bool) (i : Nat) :
    (withZ w z).getLsbD i = if i = 3 then z else w.getLsbD i := by
  show BitVec.getLsbD (w := 60 + 1 + 3)
    (w.extractLsb' 4 60 ++ BitVec.ofBool z ++ w.extractLsb' 0 3) i = _
  simp only [BitVec.getLsbD_append, BitVec.getLsbD_extractLsb']
  rcases Nat.lt_or_ge i 64 with h | h
  · interval_cases i <;> simp
  · rw [BitVec.getLsbD_of_ge w _ h]
    split_ifs <;> first | omega | exact BitVec.getLsbD_of_ge _ _ (by omega) | (simp_all; done) | (simp_all; exact fun hlt => absurd hlt (by omega))

/-- Bit 4 is the new `RUN`, the rest stays. -/
theorem withRun_bit (w : Word) (b : Bool) (i : Nat) :
    (withRun w b).getLsbD i = if i = 4 then b else w.getLsbD i := by
  show BitVec.getLsbD (w := 59 + 1 + 4)
    (w.extractLsb' 5 59 ++ BitVec.ofBool b ++ w.extractLsb' 0 4) i = _
  simp only [BitVec.getLsbD_append, BitVec.getLsbD_extractLsb']
  rcases Nat.lt_or_ge i 64 with h | h
  · interval_cases i <;> simp
  · rw [BitVec.getLsbD_of_ge w _ h]
    split_ifs <;> first | omega | exact BitVec.getLsbD_of_ge _ _ (by omega) | (simp_all; done) | (simp_all; exact fun hlt => absurd hlt (by omega))

/-- Bit 5 is the new `ERR`, the rest stays. -/
theorem withErr_bit (w : Word) (b : Bool) (i : Nat) :
    (withErr w b).getLsbD i = if i = 5 then b else w.getLsbD i := by
  show BitVec.getLsbD (w := 58 + 1 + 5)
    (w.extractLsb' 6 58 ++ BitVec.ofBool b ++ w.extractLsb' 0 5) i = _
  simp only [BitVec.getLsbD_append, BitVec.getLsbD_extractLsb']
  rcases Nat.lt_or_ge i 64 with h | h
  · interval_cases i <;> simp
  · rw [BitVec.getLsbD_of_ge w _ h]
    split_ifs <;> first | omega | exact BitVec.getLsbD_of_ge _ _ (by omega) | (simp_all; done) | (simp_all; exact fun hlt => absurd hlt (by omega))

/-- Bits 2:0 are the new code, the rest stays. -/
theorem withCmp_bit (w : Word) (c : BitVec 3) (i : Nat) :
    (withCmp w c).getLsbD i = if i < 3 then c.getLsbD i else w.getLsbD i := by
  show BitVec.getLsbD (w := 61 + 3) (w.extractLsb' 3 61 ++ c) i = _
  simp only [BitVec.getLsbD_append, BitVec.getLsbD_extractLsb']
  rcases Nat.lt_or_ge i 64 with h | h
  · interval_cases i <;> simp
  · rw [BitVec.getLsbD_of_ge w _ h]
    split_ifs <;> first | omega | exact BitVec.getLsbD_of_ge _ _ (by omega) | simp_all

/-- `flag.cmp` after it is written. -/
@[simp] theorem flagCmp_withCmp (w : Word) (c : BitVec 3) : flagCmp (withCmp w c) = c := by
  ext i hi
  simp [flagCmp, ← BitVec.getLsbD_eq_getElem, withCmp_bit, hi]

/-- Writing `Z` keeps `flag.cmp`. -/
@[simp] theorem flagCmp_withZ (w : Word) (z : Bool) : flagCmp (withZ w z) = flagCmp w := by
  ext i hi
  simp only [flagCmp, BitVec.getElem_extractLsb', withZ_bit]
  rw [if_neg (by omega)]

@[simp] theorem flagZ_withZ (w : Word) (z : Bool) : flagZ (withZ w z) = z := by
  simp only [flagZ, withZ_bit]; simp
@[simp] theorem flagRun_withZ (w : Word) (z : Bool) : flagRun (withZ w z) = flagRun w := by
  simp only [flagRun, withZ_bit]; simp
@[simp] theorem flagErr_withZ (w : Word) (z : Bool) : flagErr (withZ w z) = flagErr w := by
  simp only [flagErr, withZ_bit]; simp
@[simp] theorem flagZ_withCmp (w : Word) (c : BitVec 3) : flagZ (withCmp w c) = flagZ w := by
  simp only [flagZ, withCmp_bit]; simp
@[simp] theorem flagRun_withCmp (w : Word) (c : BitVec 3) : flagRun (withCmp w c) = flagRun w := by
  simp only [flagRun, withCmp_bit]; simp
@[simp] theorem flagErr_withCmp (w : Word) (c : BitVec 3) : flagErr (withCmp w c) = flagErr w := by
  simp only [flagErr, withCmp_bit]; simp
@[simp] theorem flagRun_withRun (w : Word) (b : Bool) : flagRun (withRun w b) = b := by
  simp only [flagRun, withRun_bit]; simp
@[simp] theorem flagZ_withRun (w : Word) (b : Bool) : flagZ (withRun w b) = flagZ w := by
  simp only [flagZ, withRun_bit]; simp
@[simp] theorem flagErr_withRun (w : Word) (b : Bool) : flagErr (withRun w b) = flagErr w := by
  simp only [flagErr, withRun_bit]; simp
@[simp] theorem flagErr_withErr (w : Word) (b : Bool) : flagErr (withErr w b) = b := by
  simp only [flagErr, withErr_bit]; simp
@[simp] theorem flagRun_withErr (w : Word) (b : Bool) : flagRun (withErr w b) = flagRun w := by
  simp only [flagRun, withErr_bit]; simp
@[simp] theorem flagZ_withErr (w : Word) (b : Bool) : flagZ (withErr w b) = flagZ w := by
  simp only [flagZ, withErr_bit]; simp

end Sys2Proof.Machine
end

