-- ==== Sys2Proof/Laws/Memory.lean ====
section
/-! SUPPORT. The laws of memory: reading after writing, the bytes of a wider access, and that every
memory operation keeps the canonical form. -/

namespace Sys2Proof.Machine

/-! ## The canonical form, unfolded once -/

/-- The canonical form of a memory that lists a cell: the cell differs from the fill byte, the rest is
canonical, and every later address is higher. -/
theorem memory_wf_cons (a : Nat) (v : Byte) (m : Memory) :
    Memory.wf ((a, v) :: m) = true ↔
      v ≠ Memory.fill ∧ Memory.wf m = true ∧ ∀ c ∈ m, a < c.1 := by
  induction m generalizing a v with
  | nil => simp [Memory.wf]
  | cons d m ih =>
    obtain ⟨b, w⟩ := d
    have hb := ih b w
    simp only [Memory.wf, Bool.and_eq_true, bne_iff_ne, decide_eq_true_eq, List.mem_cons,
      forall_eq_or_imp]
    constructor
    · rintro ⟨⟨hv, hab⟩, hm⟩
      exact ⟨hv, hm, hab, fun c hc => Nat.lt_trans hab ((hb.mp hm).2.2 c hc)⟩
    · rintro ⟨hv, hm, hab, -⟩
      exact ⟨⟨hv, hab⟩, hm⟩

/-- An address below every listed one reads as the fill byte. -/
theorem memory_read_below (m : Memory) (a : Nat) (h : ∀ c ∈ m, a < c.1) :
    m.read a = Memory.fill := by
  cases m with
  | nil => rfl
  | cons d m =>
    have hd : a < d.1 := h d (List.mem_cons_self ..)
    obtain ⟨b, w⟩ := d
    simp only at hd
    simp [Memory.read, Nat.ne_of_lt hd, hd]

/-! ## One byte -/

/-- The cells after a write: the old ones, and the written one. -/
theorem memory_mem_write (m : Memory) (a : Nat) (v : Byte) (c : Host.Cell) (h : c ∈ m.write a v) :
    c ∈ m ∨ c.1 = a := by
  induction m with
  | nil =>
    simp only [Memory.write, Memory.cons] at h
    split at h <;> simp_all
  | cons d m ih =>
    obtain ⟨b, w⟩ := d
    simp only [Memory.write, Memory.cons] at h
    split_ifs at h <;> simp only [List.mem_cons] at h ⊢ <;> aesop

/-- A write keeps the canonical form. -/
theorem memory_write_wf (m : Memory) (a : Nat) (v : Byte) (h : m.wf = true) :
    (m.write a v).wf = true := by
  induction m with
  | nil =>
    simp only [Memory.write, Memory.cons]
    split <;> simp_all [Memory.wf]
  | cons d m ih =>
    obtain ⟨b, w⟩ := d
    obtain ⟨hw, hm, hlt⟩ := (memory_wf_cons b w m).mp h
    simp only [Memory.write, Memory.cons]
    split_ifs with h1 h2 h3 h4
    · exact h
    · refine (memory_wf_cons _ _ _).mpr ⟨h2, h, ?_⟩
      simp only [List.mem_cons, forall_eq_or_imp]
      exact ⟨h1, fun c hc => Nat.lt_trans h1 (hlt c hc)⟩
    · exact hm
    · exact (memory_wf_cons _ _ _).mpr ⟨h4, hm, fun c hc => h3 ▸ hlt c hc⟩
    · refine (memory_wf_cons _ _ _).mpr ⟨hw, ih hm, fun c hc => ?_⟩
      rcases memory_mem_write m a v c hc with hc | hc
      · exact hlt c hc
      · omega

/-- A read after a write in a canonical memory: the written byte at the address, the old one at every
other. -/
theorem memory_read_write (m : Memory) (a b : Nat) (v : Byte) (h : m.wf = true) :
    (m.write a v).read b = if b = a then v else m.read b := by
  induction m with
  | nil =>
    simp only [Memory.write, Memory.cons]
    split_ifs with h1 h2 h2 <;> simp_all [Memory.read]
  | cons d m ih =>
    obtain ⟨c, w⟩ := d
    obtain ⟨-, hm, hlt⟩ := (memory_wf_cons c w m).mp h
    have hcell : ∀ x, Memory.read ((c, w) :: m) x =
        if x = c then w else if x < c then Memory.fill else Memory.read m x := fun _ => rfl
    have hbelow : ∀ x, x ≤ c → Memory.read m x = Memory.fill := fun x hx =>
      memory_read_below m x fun y hy => Nat.lt_of_le_of_lt hx (hlt y hy)
    rcases Nat.lt_trichotomy a c with hac | rfl | hca
    · have ha : Memory.write ((c, w) :: m) a v = Memory.cons a v ((c, w) :: m) := if_pos hac
      have hfill : Memory.read ((c, w) :: m) a = Memory.fill := by
        rw [hcell, if_neg (by omega), if_pos hac]
      rw [ha]
      by_cases hv : v = Memory.fill
      · rw [Memory.cons, if_pos hv]
        split_ifs with hb
        · rw [hb, hfill, hv]
        · rfl
      · rw [Memory.cons, if_neg hv, Memory.read]
        split_ifs with h1 h2
        · rfl
        · rw [hcell, if_neg (by omega), if_pos (by omega)]
        · rfl
    · have ha : Memory.write ((a, w) :: m) a v = Memory.cons a v m := by simp [Memory.write]
      rw [ha]
      by_cases hv : v = Memory.fill
      · rw [Memory.cons, if_pos hv, hcell]
        split_ifs with h1 h2
        · rw [h1, hbelow a le_rfl, hv]
        · exact hbelow b (by omega)
        · rfl
      · rw [Memory.cons, if_neg hv, Memory.read, hcell]
        split_ifs <;> rfl
    · have ha : Memory.write ((c, w) :: m) a v = (c, w) :: Memory.write m a v := by
        simp [Memory.write, Nat.not_lt_of_lt hca, Nat.ne_of_gt hca]
      rw [ha, Memory.read, hcell, ih hm]
      split_ifs <;> first | rfl | omega

/-! ## Several bytes -/

/-- Writing bytes keeps the canonical form. -/
theorem memory_writeList_wf (bs : List Byte) : ∀ (m : Memory) (a : Nat), m.wf = true →
    (m.writeList a bs).wf = true := by
  induction bs with
  | nil => exact fun _ _ h => h
  | cons b bs ih => exact fun m a h => ih _ _ (memory_write_wf m a b h)

/-- The cells after writing bytes: the old ones, and those of the written range. -/
theorem memory_mem_writeList (bs : List Byte) : ∀ (m : Memory) (a : Nat) (c : Host.Cell),
    c ∈ m.writeList a bs → c ∈ m ∨ (a ≤ c.1 ∧ c.1 < a + bs.length) := by
  induction bs with
  | nil => exact fun _ _ _ h => .inl h
  | cons b bs ih =>
    intro m a c h
    rcases ih _ _ c h with h | h
    · rcases memory_mem_write m a b c h with h | h
      · exact .inl h
      · exact .inr ⟨by omega, by simp only [List.length_cons]; omega⟩
    · exact .inr ⟨by omega, by simp only [List.length_cons]; omega⟩

/-- Reading after writing bytes: byte `k` of the list at `a + k`, the old byte elsewhere. -/
theorem memory_read_writeList (bs : List Byte) : ∀ (m : Memory) (a b : Nat), m.wf = true →
    (m.writeList a bs).read b =
      if h : a ≤ b ∧ b - a < bs.length then bs[b - a]'h.2 else m.read b := by
  induction bs with
  | nil => intro m a b _; simp [Memory.writeList]
  | cons v bs ih =>
    intro m a b hm
    rw [Memory.writeList, ih _ _ _ (memory_write_wf m a v hm), memory_read_write m a b v hm]
    by_cases hba : b = a
    · subst hba
      simp
    · by_cases hin : a + 1 ≤ b ∧ b - (a + 1) < bs.length
      · have hout : a ≤ b ∧ b - a < (v :: bs).length :=
          ⟨by omega, by simp only [List.length_cons]; omega⟩
        rw [dif_pos hin, dif_pos hout, List.getElem_cons, dif_neg (by omega)]
        congr 1
      · have hout : ¬ (a ≤ b ∧ b - a < (v :: bs).length) := by
          simp only [List.length_cons]; omega
        rw [dif_neg hin, dif_neg hout, if_neg hba]

/-- The bytes of a value are as many as asked for. -/
@[simp] theorem valueBytes_length (n : Nat) {w : Nat} (v : BitVec w) :
    (valueBytes n v).length = n := by simp [valueBytes]

/-- Byte `k` of a value (rule R44). -/
@[simp] theorem valueBytes_getElem (n : Nat) {w : Nat} (v : BitVec w) (k : Nat)
    (h : k < (valueBytes n v).length) : (valueBytes n v)[k] = v.extractLsb' (8 * k) 8 := by
  simp [valueBytes]

/-- Writing words writes the bytes of each, one word after another. -/
theorem memory_writeWords_eq (ws : List Word) : ∀ (m : Memory) (a : Nat),
    m.writeWords a ws = m.writeList a (ws.flatMap (valueBytes 8)) := by
  have append : ∀ (xs ys : List Byte) (m : Memory) (a : Nat),
      m.writeList a (xs ++ ys) = (m.writeList a xs).writeList (a + xs.length) ys := by
    intro xs
    induction xs with
    | nil => intro ys m a; rfl
    | cons x xs ih =>
      intro ys m a
      simp only [List.cons_append, Memory.writeList, List.length_cons, ih]
      congr 1
      omega
  induction ws with
  | nil => intro m a; rfl
  | cons w ws ih =>
    intro m a
    rw [Memory.writeWords, ih, List.flatMap_cons, append, valueBytes_length]

/-- The number of bytes of a list of words. -/
theorem flatMap_valueBytes_length (ws : List Word) :
    (ws.flatMap (valueBytes 8)).length = 8 * ws.length := by
  induction ws with
  | nil => rfl
  | cons w ws ih => rw [List.flatMap_cons, List.length_append, ih, valueBytes_length,
      List.length_cons]; omega

/-- Writing words keeps the canonical form. -/
theorem memory_writeWords_wf (ws : List Word) (m : Memory) (a : Nat) (h : m.wf = true) :
    (m.writeWords a ws).wf = true := by
  rw [memory_writeWords_eq]
  exact memory_writeList_wf _ _ _ h

/-- A read depends on the bytes of its range only. -/
theorem memory_readBytes_congr (m m' : Memory) (n : Nat) : ∀ (a : Nat),
    (∀ b, a ≤ b → b < a + n → m.read b = m'.read b) → m.readBytes a n = m'.readBytes a n := by
  induction n with
  | zero => intro a _; rfl
  | succ n ih =>
    intro a h
    rw [Memory.readBytes, Memory.readBytes, h a (by omega) (by omega),
      ih (a + 1) fun b h1 h2 => h b (by omega) (by omega)]

/-- Byte `k` of a value read is the byte at `a + k` (rules R43, R45). -/
theorem memory_readBytes_byte (m : Memory) (n : Nat) : ∀ (a k : Nat), k < n →
    (m.readBytes a n).extractLsb' (8 * k) 8 = m.read (a + k) := by
  induction n with
  | zero => intro a k h; omega
  | succ n ih =>
    intro a k hk
    rw [Memory.readBytes]
    cases k with
    | zero =>
      ext i hi
      simp only [BitVec.getElem_extractLsb', Nat.mul_zero, Nat.zero_add, Nat.add_zero]
      rw [BitVec.getLsbD_append, if_pos hi, BitVec.getLsbD_eq_getElem]
    | succ k =>
      have hk' := ih (a + 1) k (by omega)
      ext i hi
      have h := congrArg (fun b : BitVec 8 => b.getLsbD i) hk'
      simp only [BitVec.getLsbD_extractLsb', hi, decide_true, Bool.true_and] at h
      simp only [BitVec.getElem_extractLsb']
      rw [BitVec.getLsbD_append, if_neg (by omega),
        show 8 * (k + 1) + i - 8 = 8 * k + i by omega, h, ← BitVec.getLsbD_eq_getElem,
        show a + 1 + k = a + (k + 1) by omega]

end Sys2Proof.Machine
end

