-- ==== Sys2Proof/Laws/State.lean ====
section
/-! SUPPORT. What each update of the state leaves alone, field by field, and the one law of reading a
register after writing one. -/

namespace Sys2Proof.Machine

variable (s : State) (r q : Reg) (v : Word)

/-! ## Writing a register -/

@[simp] theorem writeReg_mem : (s.writeReg r v).mem = s.mem := by cases r <;> rfl
@[simp] theorem writeReg_output : (s.writeReg r v).output = s.output := by cases r <;> rfl
@[simp] theorem writeReg_input : (s.writeReg r v).input = s.input := by cases r <;> rfl
@[simp] theorem writeReg_lastFault : (s.writeReg r v).lastFault = s.lastFault := by cases r <;> rfl
@[simp] theorem writeReg_cfg : (s.writeReg r v).cfg = s.cfg := by cases r <;> rfl
@[simp] theorem writeReg_byteAt (a : Nat) : (s.writeReg r v).byteAt a = s.byteAt a := by
  simp [State.byteAt]

@[simp] theorem writeReg_zero : s.writeReg .zero v = s := rfl
@[simp] theorem readReg_zero : s.readReg .zero = 0 := rfl

/-- Reading any register after writing any register (rules R17, R24). -/
theorem readReg_writeReg :
    (s.writeReg r v).readReg q =
      if q = .zero then 0 else if q = r then v else s.readReg q := by
  cases r <;> cases q <;>
    simp [State.readReg, State.writeReg, Vector.getElem_set, Fin.ext_iff, eq_comm]

theorem readReg_writeReg_self (h : r ≠ .zero) : (s.writeReg r v).readReg r = v := by
  simp [readReg_writeReg, h]

theorem readReg_writeReg_of_ne (h : q ≠ r) : (s.writeReg r v).readReg q = s.readReg q := by
  cases q <;> simp_all [readReg_writeReg]

/-! ## The other fields -/

@[simp] theorem readReg_with_mem (m : Memory) : { s with mem := m }.readReg r = s.readReg r := by
  cases r <;> rfl
@[simp] theorem readReg_with_output (o : List OutputEvent) :
    { s with output := o }.readReg r = s.readReg r := by cases r <;> rfl
@[simp] theorem readReg_with_input (i : List InputAnswer) :
    { s with input := i }.readReg r = s.readReg r := by cases r <;> rfl
@[simp] theorem readReg_with_lastFault (f : Option FaultReason) :
    { s with lastFault := f }.readReg r = s.readReg r := by cases r <;> rfl

theorem byteAt_with_mem (m : Memory) (a : Nat) : { s with mem := m }.byteAt a = m.read a := rfl
@[simp] theorem byteAt_with_output (o : List OutputEvent) (a : Nat) :
    { s with output := o }.byteAt a = s.byteAt a := rfl
@[simp] theorem byteAt_with_input (i : List InputAnswer) (a : Nat) :
    { s with input := i }.byteAt a = s.byteAt a := rfl
@[simp] theorem byteAt_with_lastFault (f : Option FaultReason) (a : Nat) :
    { s with lastFault := f }.byteAt a = s.byteAt a := rfl

/-! ## The zero flag, the halt, the advance, an event -/

@[simp] theorem updateZ_mem : (s.updateZ r).mem = s.mem := by simp [State.updateZ]
@[simp] theorem updateZ_output : (s.updateZ r).output = s.output := by simp [State.updateZ]
@[simp] theorem updateZ_input : (s.updateZ r).input = s.input := by simp [State.updateZ]
@[simp] theorem updateZ_lastFault : (s.updateZ r).lastFault = s.lastFault := by simp [State.updateZ]
@[simp] theorem updateZ_cfg : (s.updateZ r).cfg = s.cfg := by simp [State.updateZ]

@[simp] theorem writeDest_mem : (s.writeDest r v).mem = s.mem := by simp [State.writeDest]
@[simp] theorem writeDest_output : (s.writeDest r v).output = s.output := by simp [State.writeDest]
@[simp] theorem writeDest_input : (s.writeDest r v).input = s.input := by simp [State.writeDest]
@[simp] theorem writeDest_lastFault : (s.writeDest r v).lastFault = s.lastFault := by
  simp [State.writeDest]
@[simp] theorem writeDest_cfg : (s.writeDest r v).cfg = s.cfg := by simp [State.writeDest]
@[simp] theorem writeDest_byteAt (a : Nat) : (s.writeDest r v).byteAt a = s.byteAt a := by
  simp [State.byteAt]

@[simp] theorem halt_mem : s.halt.mem = s.mem := rfl
@[simp] theorem halt_output : s.halt.output = s.output := rfl
@[simp] theorem halt_input : s.halt.input = s.input := rfl
@[simp] theorem halt_lastFault : s.halt.lastFault = s.lastFault := rfl
@[simp] theorem halt_cfg : s.halt.cfg = s.cfg := rfl
@[simp] theorem halt_byteAt (a : Nat) : s.halt.byteAt a = s.byteAt a := rfl

@[simp] theorem advance_mem : s.advance.mem = s.mem := rfl
@[simp] theorem advance_output : s.advance.output = s.output := rfl
@[simp] theorem advance_input : s.advance.input = s.input := rfl
@[simp] theorem advance_lastFault : s.advance.lastFault = s.lastFault := rfl
@[simp] theorem advance_cfg : s.advance.cfg = s.cfg := rfl
@[simp] theorem advance_byteAt (a : Nat) : s.advance.byteAt a = s.byteAt a := rfl
@[simp] theorem advance_ip : s.advance.readReg .ip = s.readReg .ip + 8 := rfl

/-- The advance touches `$ip` only. -/
theorem advance_readReg_of_ne (h : r ≠ .ip) : s.advance.readReg r = s.readReg r :=
  readReg_writeReg_of_ne s .ip r _ h

@[simp] theorem emit_mem (e : OutputEvent) : (s.emit e).mem = s.mem := rfl
@[simp] theorem emit_output (e : OutputEvent) : (s.emit e).output = s.output ++ [e] := rfl
@[simp] theorem emit_input (e : OutputEvent) : (s.emit e).input = s.input := rfl
@[simp] theorem emit_lastFault (e : OutputEvent) : (s.emit e).lastFault = s.lastFault := rfl
@[simp] theorem emit_cfg (e : OutputEvent) : (s.emit e).cfg = s.cfg := rfl
@[simp] theorem emit_readReg (e : OutputEvent) : (s.emit e).readReg r = s.readReg r := by
  cases r <;> rfl

/-! ## Taking a fault -/

@[simp] theorem raise_mem (f : FaultReason) : (s.raise f).mem = s.mem := rfl
@[simp] theorem raise_output (f : FaultReason) : (s.raise f).output = s.output := rfl
@[simp] theorem raise_input (f : FaultReason) : (s.raise f).input = s.input := rfl
@[simp] theorem raise_lastFault (f : FaultReason) : (s.raise f).lastFault = some f := rfl
@[simp] theorem raise_cfg (f : FaultReason) : (s.raise f).cfg = s.cfg := rfl
@[simp] theorem raise_byteAt (f : FaultReason) (a : Nat) : (s.raise f).byteAt a = s.byteAt a := rfl

/-- A fault touches `$flag` only (rule R301). -/
theorem raise_readReg_of_ne (f : FaultReason) (h : r ≠ .flag) :
    (s.raise f).readReg r = s.readReg r := by
  cases r <;> first | rfl | exact absurd rfl h

@[simp] theorem raise_flag (f : FaultReason) :
    (s.raise f).readReg .flag = withRun (withErr (s.readReg .flag) true) false := rfl

end Sys2Proof.Machine
end

