-- ==== Sys2Proof/Laws/Ops.lean ====
section
/-! SUPPORT. One lemma for each shared operation that says once what it can do: the ends of an
instruction, the condition, the reads and writes of memory, the operands, the destination write. -/

namespace Sys2Proof.Machine

/-! ## The end of an instruction -/

@[simp] theorem conclude_ok (s t : State) : s.conclude (.ok t) = .next t := rfl
@[simp] theorem conclude_error (s : State) (r : FaultReason) :
    s.conclude (.error r) = .next (s.raise r) := rfl

/-- An instruction that concludes answers a next state: its own, or the fault taken. -/
theorem conclude_cases (s t : State) (x : Except FaultReason State) (h : s.conclude x = .next t) :
    x = .ok t ∨ ∃ r, x = .error r ∧ t = s.raise r := by
  cases x with
  | ok u => left; simpa using h
  | error r => right; exact ⟨r, rfl, by simpa using h.symm⟩

/-- A condition that holds runs the instruction. -/
theorem conditional_pass (s : State) (c : Cond) (body : Result)
    (h : condHolds s.cfg.condMatch c (s.readReg .flag) = true) : s.conditional c body = body := by
  simp [State.conditional, h]

/-- A condition that fails skips it (rule R63). -/
theorem conditional_skip (s : State) (c : Cond) (body : Result)
    (h : condHolds s.cfg.condMatch c (s.readReg .flag) = false) : s.conditional c body = .next s := by
  simp [State.conditional, h]

/-- What a conditional instruction can do: its body, or nothing. -/
theorem conditional_cases (s t : State) (c : Cond) (body : Result)
    (h : s.conditional c body = .next t) : body = .next t ∨ t = s := by
  unfold State.conditional at h
  split at h
  · exact .inl h
  · right; simpa using h.symm

/-! ## Memory accesses -/

/-- A read answers the bytes and is in range (rules R42, R43). -/
theorem memRead_ok (s : State) (a : Word) (n : Nat) (b : BitVec (8 * n)) :
    s.memRead a n = .ok b ↔ a.toNat + n ≤ s.cfg.memSize ∧ b = s.mem.readBytes a.toNat n := by
  unfold State.memRead State.inRange
  split <;> simp_all [eq_comm]

/-- A write answers the state with the bytes written and is in range (rules R42, R44). -/
theorem memWrite_ok (s t : State) (a : Word) (n : Nat) {w : Nat} (v : BitVec w) :
    s.memWrite a n v = .ok t ↔
      a.toNat + n ≤ s.cfg.memSize ∧ t = { s with mem := s.mem.writeList a.toNat (valueBytes n v) } := by
  unfold State.memWrite State.inRange
  split <;> simp_all [eq_comm]

/-- A range check passes exactly when the access is in range (rule R42). -/
theorem checkRange_ok (s : State) (a : Word) (n : Nat) (u : Unit) :
    s.checkRange a n = .ok u ↔ a.toNat + n ≤ s.cfg.memSize := by
  unfold State.checkRange State.inRange
  split <;> simp_all

/-! ## Invariant of memory -/

/-- Bytes written inside memory keep the invariant. -/
theorem memOk_writeList (s : State) (a : Nat) (bs : List Byte) (h : s.MemOk)
    (hr : a + bs.length ≤ s.cfg.memSize) : { s with mem := s.mem.writeList a bs }.MemOk := by
  refine ⟨memory_writeList_wf _ _ _ h.1, fun c hc => ?_⟩
  rcases memory_mem_writeList _ _ _ _ hc with hc | hc
  · exact h.2 c hc
  · exact Nat.lt_of_lt_of_le hc.2 hr

/-- The invariant depends on memory and its size only. -/
theorem memOk_congr (s t : State) (hm : t.mem = s.mem) (hc : t.cfg = s.cfg) (h : s.MemOk) :
    t.MemOk := by
  unfold State.MemOk at *
  rw [hm, hc]
  exact h

/-! ## The destination write -/

/-- The registers after a destination write (rules R17, R18, R24). -/
theorem writeDest_readReg (s : State) (rd q : Reg) (v : Word) :
    (s.writeDest rd v).readReg q =
      if q = .flag then
        withZ (if rd = .flag then v else s.readReg .flag) ((if rd = .zero then 0 else v) == 0)
      else if q = .zero then 0 else if q = rd then v else s.readReg q := by
  unfold State.writeDest State.updateZ
  rw [readReg_writeReg]
  by_cases hq : q = .flag
  · subst hq
    rw [if_neg (by decide), if_pos rfl, if_pos rfl, readReg_writeReg, readReg_writeReg,
      if_neg (by decide)]
    congr 2
    · exact propext eq_comm
    · by_cases hz : rd = .zero <;> simp [hz]
  · rw [if_neg hq, if_neg hq, readReg_writeReg]
    split_ifs <;> rfl

/-- A destination write has its effect and no other (rules R17, R18, R24). -/
theorem writeDest_wrote (s : State) (rd : Reg) (v : Word) : WroteDest s (s.writeDest rd v) rd v where
  dest hz hf := by rw [writeDest_readReg, if_neg hf, if_neg hz, if_pos rfl]
  zflag := by
    rw [writeDest_readReg, if_pos rfl, flagZ_withZ]
    exact beq_eq_decide ..
  flags i hi := by rw [writeDest_readReg, if_pos rfl, withZ_bit, if_neg hi]
  regs r hr := by
    simp only [List.mem_cons, List.not_mem_nil, or_false, not_or] at hr
    rw [writeDest_readReg, if_neg hr.2]
    split_ifs with h1 h2
    · rw [h1]; rfl
    · exact absurd h2 hr.1
    · rfl
  mem a := writeDest_byteAt s rd v a
  host := ⟨writeDest_output .., writeDest_input .., writeDest_cfg ..⟩
  ghost := writeDest_lastFault ..

/-- Taking a fault has its effect and no other (rule R301). -/
theorem raise_took (s : State) (r : FaultReason) : TookFault s (s.raise r) r where
  err := by rw [raise_flag, flagErr_withRun, flagErr_withErr]
  halted := by rw [State.Halted, raise_flag, flagRun_withRun]
  flags i h4 h5 := by rw [raise_flag, withRun_bit, if_neg h4, withErr_bit, if_neg h5]
  regs q hq := by
    simp only [List.mem_cons, List.not_mem_nil, or_false] at hq
    exact raise_readReg_of_ne s q r hq
  mem _ := rfl
  host := ⟨rfl, rfl, rfl⟩
  ghost := rfl

/-! ## Operands -/

@[simp] theorem valZ_imm (s : State) (data : Half) : s.valZ (.imm data) = .ok (data.setWidth 64) := rfl
@[simp] theorem valZ_reg (s : State) (r : Reg) : s.valZ (.reg r) = .ok (s.readReg r) := rfl

/-- The address of register indirect is the register plus the signed offset, modulo `2^64` (rule R41). -/
theorem indirect_toNat (s : State) (r : Reg) (n : BitVec 24) :
    ((s.indirect r n).toNat : Int) = ((s.readReg r).toNat + n.toInt) % 2 ^ 64 := by
  have hn : ((n.signExtend 64).toNat : Int) = n.toInt % 2 ^ 64 := by
    rw [BitVec.signExtend, BitVec.toNat_ofInt]
    omega
  rw [State.indirect, BitVec.toNat_add]
  omega

/-- A memory operand in range reads as its four bytes, out of range it is the fault (rules R42, R70). -/
theorem readHalf_eq (s : State) (a : Word) :
    s.readHalf a = if a.toNat + 4 ≤ s.cfg.memSize then .ok (.half (s.mem.readBytes a.toNat 4))
      else .error (.memRange a.toNat) := by
  unfold State.readHalf State.memRead State.inRange
  split <;> simp_all [Except.map]

/-- The untyped operand is the operand read, zero-extended (rule R71). -/
theorem valZ_ok (s : State) (v : Value) (b : Word) (h : s.valZ v = .ok b) :
    s.opRead v = .ok (.full b) ∨ ∃ x : Half, s.opRead v = .ok (.half x) ∧ b = x.setWidth 64 := by
  unfold State.valZ at h
  cases ho : s.opRead v with
  | error r => rw [ho] at h; cases h
  | ok o =>
    rw [ho] at h
    cases o with
    | full x => left; cases h; rfl
    | half x => right; exact ⟨x, rfl, by cases h; rfl⟩

/-- An operand that faults when read faults untyped and under every type, with the same reason. -/
theorem opRead_error (s : State) (v : Value) (r : FaultReason) (h : s.opRead v = .error r) :
    s.valZ v = .error r ∧ ∀ dt, s.valT v dt = .error r := by
  constructor
  · simp [State.valZ, h, Except.map]
  · intro dt
    simp [State.valT, h, bind, Except.bind]

/-- What an operand read can be, by its mode (rule R70). -/
theorem opRead_ok (s : State) (v : Value) (o : OperandBits) (h : s.opRead v = .ok o) :
    (∃ data, v = .imm data ∧ o = .half data) ∨
    (∃ r, v = .reg r ∧ o = .full (s.readReg r)) ∨
    (∃ a : Word, ((∃ m, v = .mem m ∧ a = m.setWidth 64) ∨ ∃ r n, v = .ind r n ∧ a = s.indirect r n) ∧
      a.toNat + 4 ≤ s.cfg.memSize ∧ o = .half (s.mem.readBytes a.toNat 4)) := by
  have hhalf : ∀ a : Word, s.readHalf a = .ok o →
      a.toNat + 4 ≤ s.cfg.memSize ∧ o = .half (s.mem.readBytes a.toNat 4) := by
    intro a ha
    unfold State.readHalf at ha
    cases hm : s.memRead a 4 with
    | error r => rw [hm] at ha; cases ha
    | ok b =>
      rw [hm] at ha
      obtain ⟨hr, rfl⟩ := (memRead_ok s a 4 b).mp hm
      exact ⟨hr, by cases ha; rfl⟩
  cases v with
  | imm data => left; exact ⟨data, rfl, by cases h; rfl⟩
  | reg r => right; left; exact ⟨r, rfl, by cases h; rfl⟩
  | mem m => right; right; exact ⟨_, .inl ⟨m, rfl, rfl⟩, hhalf _ h⟩
  | ind r n => right; right; exact ⟨_, .inr ⟨r, n, rfl, rfl⟩, hhalf _ h⟩

end Sys2Proof.Machine
end

