-- ==== Sys2Proof/Laws/Families.lean ====
section
/-! SUPPORT. What the shared operations of the instruction families can do, said once for each: typed
operands, the arithmetic and logical forms, the frame and its reload, strings, the fetch. -/

namespace Sys2Proof.Machine

/-! ## Typed operands, arithmetic, logical -/

/-- A typed operand is a register's low bits, or a widened 32-bit operand (rule R81). -/
theorem valT_ok (s : State) (v : Value) (dt : DType) (b : BitVec (typeWidth dt))
    (h : s.valT v dt = .ok b) :
    (∃ x : Word, s.opRead v = .ok (.full x) ∧ b = x.setWidth (typeWidth dt)) ∨
    ∃ x : Half, s.opRead v = .ok (.half x) ∧ widenHalf dt x = .ok b := by
  unfold State.valT at h
  cases ho : s.opRead v with
  | error r => simp [ho, bind, Except.bind] at h
  | ok o =>
    cases o with
    | full x => left; exact ⟨x, rfl, by simpa [ho, bind, Except.bind, eq_comm] using h⟩
    | half x => right; exact ⟨x, rfl, by simpa [ho, bind, Except.bind] using h⟩

/-- The common arithmetic form with its operand read and its operation done (rule R120). -/
theorem arith_ok (s t : State) (op : ArithOp) (dt : DType) (rd rs : Reg) (v : Value) :
    s.arith op dt rd rs v = .ok t ↔
      ∃ b r, s.valT v dt = .ok b ∧ op dt (s.regT rs dt) b = .ok r ∧ t = s.writeDest rd r := by
  unfold State.arith
  cases hv : s.valT v dt with
  | error e => simp [bind, Except.bind]
  | ok b =>
    cases ho : op dt (s.regT rs dt) b with
    | error e => simp [bind, Except.bind, ho]
    | ok r => simp [bind, Except.bind, ho, pure, Except.pure, eq_comm]

/-- The common arithmetic form faults with its operand or with its operation. -/
theorem arith_error (s : State) (op : ArithOp) (dt : DType) (rd rs : Reg) (v : Value)
    (r : FaultReason) :
    s.arith op dt rd rs v = .error r ↔
      s.valT v dt = .error r ∨ ∃ b, s.valT v dt = .ok b ∧ op dt (s.regT rs dt) b = .error r := by
  unfold State.arith
  cases hv : s.valT v dt with
  | error e => simp [bind, Except.bind]
  | ok b => cases ho : op dt (s.regT rs dt) b <;> simp [bind, Except.bind, ho, pure, Except.pure]

/-- The common logical form with its operand read (rule R170). -/
theorem logical_ok (s t : State) (op : Word → Word → Word) (rd rs : Reg) (v : Value) :
    s.logical op rd rs v = .ok t ↔
      ∃ b, s.valZ v = .ok b ∧ t = s.writeDest rd (op (s.readReg rs) b) := by
  unfold State.logical
  cases hv : s.valZ v <;> simp [bind, Except.bind, pure, Except.pure, eq_comm]

/-! ## The frame -/

/-- The frame is ten words (rule R212). -/
theorem frame_length (s : State) : s.frame.length = 10 := by simp [State.frame]

/-- Writing different registers one after another: each holds what was last written to it. -/
theorem foldl_writeReg_read (f : Fin 8 → Word) (ks : List (Fin 8)) : ∀ (s : State) (q : Reg),
    (ks.foldl (fun t k => t.writeReg (.s k) (f k)) s).readReg q =
      match q with
      | .s j => if j ∈ ks then f j else s.readReg (.s j)
      | q => s.readReg q := by
  induction ks with
  | nil => intro s q; cases q <;> simp
  | cons k ks ih =>
    intro s q
    rw [List.foldl_cons, ih]
    cases q <;> simp only [readReg_writeReg] <;> simp
    split_ifs <;> simp_all

/-- The reload of the preserved registers (rule R211): each from its word of the frame. -/
theorem reloadPreserved_readReg (s : State) (f : Word) (q : Reg) :
    (s.reloadPreserved f).readReg q =
      match q with
      | .s j => s.frameWord f (16 + 8 * j.val)
      | q => s.readReg q := by
  unfold State.reloadPreserved
  rw [foldl_writeReg_read]
  cases q <;> simp

/-- The reload touches registers only. -/
theorem reloadPreserved_rest (s : State) (f : Word) :
    (s.reloadPreserved f).mem = s.mem ∧ (s.reloadPreserved f).output = s.output ∧
      (s.reloadPreserved f).input = s.input ∧ (s.reloadPreserved f).lastFault = s.lastFault ∧
      (s.reloadPreserved f).cfg = s.cfg := by
  have key : ∀ (ks : List (Fin 8)) (g : Fin 8 → Word) (u : State),
      (ks.foldl (fun t k => t.writeReg (.s k) (g k)) u).mem = u.mem ∧
      (ks.foldl (fun t k => t.writeReg (.s k) (g k)) u).output = u.output ∧
      (ks.foldl (fun t k => t.writeReg (.s k) (g k)) u).input = u.input ∧
      (ks.foldl (fun t k => t.writeReg (.s k) (g k)) u).lastFault = u.lastFault ∧
      (ks.foldl (fun t k => t.writeReg (.s k) (g k)) u).cfg = u.cfg := by
    intro ks g
    induction ks with
    | nil => exact fun _ => ⟨rfl, rfl, rfl, rfl, rfl⟩
    | cons k ks ih => exact fun u => ih (u.writeReg (.s k) (g k))
  exact key _ _ s

/-! ## Strings -/

/-- A string found is made of nonzero bytes of memory, ends with a zero byte, and lies within the fuel
(rule R256). -/
theorem memory_stringAt_some (m : Memory) (fuel : Nat) : ∀ (a : Nat) (bs : List Byte),
    m.stringAt fuel a = some bs ↔
      bs.length < fuel ∧ m.read (a + bs.length) = 0 ∧
        ∀ k (h : k < bs.length), bs[k] = m.read (a + k) ∧ bs[k] ≠ 0 := by
  induction fuel with
  | zero => intro a bs; simp [Memory.stringAt]
  | succ fuel ih =>
    intro a bs
    rw [Memory.stringAt]
    by_cases h0 : m.read a = 0
    · rw [if_pos h0]
      constructor
      · intro h
        cases h
        exact ⟨by simp, by simpa using h0, fun k hk => absurd hk (by simp)⟩
      · rintro ⟨-, -, h⟩
        cases bs with
        | nil => rfl
        | cons b bs =>
          have := h 0 (by simp)
          simp_all
    · rw [if_neg h0]
      cases bs with
      | nil => simpa using h0
      | cons b bs =>
        simp only [Option.map_eq_some_iff, List.cons.injEq, List.length_cons]
        constructor
        · rintro ⟨bs', h, rfl, rfl⟩
          obtain ⟨h1, h2, h3⟩ := (ih (a + 1) bs').mp h
          refine ⟨by omega, ?_, ?_⟩
          · rw [show a + (bs'.length + 1) = a + 1 + bs'.length by omega]
            exact h2
          · intro k hk
            cases k with
            | zero => exact ⟨rfl, h0⟩
            | succ k =>
              rw [show a + (k + 1) = a + 1 + k by omega]
              exact h3 k (by omega)
        · rintro ⟨h1, h2, h3⟩
          refine ⟨bs, (ih (a + 1) bs).mpr ⟨by omega, ?_, ?_⟩, ?_, rfl⟩
          · rw [show a + 1 + bs.length = a + (bs.length + 1) by omega]
            exact h2
          · intro k hk
            have := h3 (k + 1) (by omega)
            rw [show a + (k + 1) = a + 1 + k by omega] at this
            exact this
          · exact (h3 0 (by omega)).1.symm

/-- No string is found exactly when every byte within the fuel is nonzero. -/
theorem memory_stringAt_none (m : Memory) (fuel : Nat) : ∀ a : Nat,
    m.stringAt fuel a = none ↔ ∀ k, k < fuel → m.read (a + k) ≠ 0 := by
  induction fuel with
  | zero => intro a; simp [Memory.stringAt]
  | succ fuel ih =>
    intro a
    rw [Memory.stringAt]
    by_cases h0 : m.read a = 0
    · rw [if_pos h0]
      constructor
      · exact fun h => absurd h (by simp)
      · exact fun h => absurd h0 (by simpa using h 0 (by omega))
    · rw [if_neg h0, Option.map_eq_none_iff, ih]
      constructor
      · intro h k hk
        cases k with
        | zero => exact h0
        | succ k =>
          rw [show a + (k + 1) = a + 1 + k by omega]
          exact h k (by omega)
      · intro h k hk
        rw [show a + 1 + k = a + (k + 1) by omega]
        exact h (k + 1) (by omega)

/-- Bytes stored: none, or all of them in range (rules R48, R261). -/
theorem storeBytes_ok (s t : State) (a : Word) (bs : List Byte) :
    s.storeBytes a bs = .ok t ↔
      (bs = [] ∨ a.toNat + bs.length ≤ s.cfg.memSize) ∧
        t = { s with mem := s.mem.writeList a.toNat bs } := by
  unfold State.storeBytes State.inRange
  by_cases h : bs = []
  · subst h; simp only [if_true, true_or, true_and, Except.ok.injEq, Memory.writeList]; exact eq_comm
  · simp only [h, if_false, false_or]
    split <;> simp_all [eq_comm]

/-! ## The fetch -/

/-- The word fetched is the little-endian word of the eight bytes at `$ip` (rules R27, R45). -/
theorem fetchWord_ok (s : State) (w : Word) :
    s.fetchWord = .ok w ↔ s.FetchInRange ∧ w = s.mem.readBytes (s.readReg .ip).toNat 8 :=
  memRead_ok s (s.readReg .ip) 8 w

end Sys2Proof.Machine
end

