-- ==== Sys2Proof/Laws/Inversion.lean ====
section
/-! SUPPORT. Inversion: what an instruction can do, and what a step can do, said once. -/

namespace Sys2Proof.Machine

/-- Everything `exec` can do when it answers a next state: skip (a failed condition, or `nop`), take a
fault, or the one kind of write of the instruction, with what holds where it happens. -/
inductive Effect (s : State) : Instr → State → Prop where
  | skip (i : Instr) : Effect s i s
  | fault (i : Instr) (r : FaultReason) : Effect s i (s.raise r)
  | wrote (i : Instr) (rd : Reg) (x : Word) (h : i.zDest = some rd) : Effect s i (s.writeDest rd x)
  | storeReg (c : Cond) (rs r : Reg) : Effect s (.store c rs (.reg r)) (s.writeReg r (s.readReg rs))
  | storeMem (c : Cond) (rs : Reg) (a : Addr) (addr : Word) (t : State) (hl : s.loc a = .mem addr)
      (hw : s.memWrite addr 4 (s.readReg rs) = .ok t) : Effect s (.store c rs a) t
  | compared (c : Cond) (dt : DType) (rs : Reg) (v : Value) (code : BitVec 3) (z : Bool) :
      Effect s (.cmp c dt rs v) (s.writeReg .flag (withZ (withCmp (s.readReg .flag) code) z))
  | pushed (c : Cond) (v : Value) (b : Word) (t : State) (hv : s.valZ v = .ok b)
      (hw : s.memWrite (s.readReg .sp) 4 b = .ok t) :
      Effect s (.push c v) (t.writeReg .sp (s.readReg .sp + 4))
  | called (c : Cond) (v : Value) (x : Word) (hv : s.valZ v = .ok x)
      (hr : (s.readReg .sp).toNat + 80 ≤ s.cfg.memSize) :
      Effect s (.call c v)
        (((({ s with mem := s.mem.writeWords (s.readReg .sp).toNat s.frame } : State).writeReg .fp
          (s.readReg .sp)).writeReg .sp (s.readReg .sp + 80)).writeReg .ip x)
  | returned (c : Cond) (n : Half) (hn : s.memRead (s.readReg .fp - 4) 4 = .ok n)
      (hr : (s.readReg .fp).toNat + 80 ≤ s.cfg.memSize) :
      Effect s (.ret c)
        ((((s.reloadPreserved (s.readReg .fp)).writeReg .ip (s.frameWord (s.readReg .fp) 8)).writeReg .sp
          (s.readReg .fp - 4 * (n.setWidth 64 + 1))).writeReg .fp (s.frameWord (s.readReg .fp) 0))
  | printed (c : Cond) (v : Value) (e : OutputEvent) : Effect s (.syscall c v) (s.emit e)
  | answered (c : Cond) (v : Value) (x : Word) (rest : List InputAnswer) :
      Effect s (.syscall c v) ({ s with input := rest }.writeReg .ret x)
  | readText (c : Cond) (v : Value) (rest : List InputAnswer) (bs : List Byte) (t : State)
      (hv : s.valZ v = .ok 10) (hw : { s with input := rest }.storeBytes s.arg1 bs = .ok t) :
      Effect s (.syscall c v) t
  | exited (c : Cond) (v : Value) (hv : s.valZ v = .ok 11) : Effect s (.syscall c v) s.halt
  | exitedWith (c : Cond) (v : Value) (hv : s.valZ v = .ok 12) :
      Effect s (.syscall c v) (s.writeReg .ret s.arg1).halt

/-- A conditional instruction that concludes skips, takes a fault, or has its effect. -/
theorem conditional_conclude_cases (s t : State) (c : Cond) (x : Except FaultReason State) (i : Instr)
    (h : s.conditional c (s.conclude x) = .next t) (hx : x = .ok t → Effect s i t) : Effect s i t := by
  rcases conditional_cases _ _ _ _ h with h | rfl
  · rcases conclude_cases _ _ _ h with h | ⟨r, -, rfl⟩
    · exact hx h
    · exact .fault i r
  · exact .skip i

/-- The effect of the arithmetic form. -/
theorem arith_effect (s t : State) (op : ArithOp) (c : Cond) (dt : DType) (rd rs : Reg) (v : Value)
    (i : Instr) (hi : i.zDest = some rd)
    (h : s.conditional c (s.conclude (s.arith op dt rd rs v)) = .next t) : Effect s i t := by
  refine conditional_conclude_cases s t c _ i h fun hx => ?_
  obtain ⟨b, r, -, -, rfl⟩ := (arith_ok ..).mp hx
  exact .wrote i rd r hi

/-- The effect of the logical form. -/
theorem logical_effect (s t : State) (op : Word → Word → Word) (c : Cond) (rd rs : Reg) (v : Value)
    (i : Instr) (hi : i.zDest = some rd)
    (h : s.conditional c (s.conclude (s.logical op rd rs v)) = .next t) : Effect s i t := by
  refine conditional_conclude_cases s t c _ i h fun hx => ?_
  obtain ⟨b, -, rfl⟩ := (logical_ok ..).mp hx
  exact .wrote i rd _ hi

/-- The effect of a service (rules R252 to R263), its number known. -/
theorem serve_effect (s t : State) (c : Cond) (v : Value) (k : Word) (sv : Service)
    (hv : s.valZ v = .ok k) (hk : serviceOf k = some sv) (h : s.serve sv = .next t) :
    Effect s (.syscall c v) t := by
  have number : ∀ n : Nat, n < 2 ^ 64 → k.toNat = n → s.valZ v = .ok (BitVec.ofNat 64 n) := by
    intro n hn hkn
    rw [hv]
    congr 1
    apply BitVec.eq_of_toNat_eq
    rw [BitVec.toNat_ofNat, Nat.mod_eq_of_lt hn, hkn]
  unfold serviceOf at hk
  split at hk <;> cases hk
  · cases h; exact .printed c v _
  · cases h; exact .printed c v _
  · cases h; exact .printed c v _
  · cases h; exact .printed c v _
  · change servicePrintString s = _ at h
    unfold servicePrintString at h
    rcases conclude_cases _ _ _ h with h | ⟨r, -, rfl⟩
    · cases hs : s.stringAt s.arg1 with
      | error r => simp [hs, bind, Except.bind] at h
      | ok bs => rw [hs] at h; cases h; exact .printed c v _
    · exact .fault _ r
  · change serviceReadInt s = _ at h
    unfold serviceReadInt at h
    split at h <;> cases h
    exact .answered c v _ _
  · change serviceReadFloat s = _ at h
    unfold serviceReadFloat at h
    split at h <;> cases h
    exact .answered c v _ _
  · change serviceReadDouble s = _ at h
    unfold serviceReadDouble at h
    split at h <;> cases h
    exact .answered c v _ _
  · change serviceReadChar s = _ at h
    unfold serviceReadChar at h
    split at h <;> cases h
    exact .answered c v _ _
  · rename_i hn
    change serviceReadString s = _ at h
    unfold serviceReadString at h
    split at h
    · split at h
      · rcases conclude_cases _ _ _ h with h | ⟨r, -, rfl⟩
        · exact .readText c v _ _ t (number 10 (by decide) hn) h
        · exact .fault _ r
      · cases h
    · cases h
  · rename_i hn; cases h; exact .exited c v (number 11 (by decide) hn)
  · rename_i hn; cases h; exact .exitedWith c v (number 12 (by decide) hn)

/-- Whatever next state an instruction answers is one of its effects. -/
theorem exec_effect (i : Instr) (s t : State) (h : exec i s = .next t) : Effect s i t := by
  cases i with
  | nop => cases h; exact .skip _
  | load c rd v =>
    refine conditional_conclude_cases s t c _ _ h fun hx => ?_
    cases hv : s.valZ v with
    | error r => rw [hv] at hx; cases hx
    | ok b => rw [hv] at hx; cases hx; exact .wrote _ rd _ rfl
  | loadu c rd v =>
    refine conditional_conclude_cases s t c _ _ h fun hx => ?_
    cases hv : s.valZ v with
    | error r => rw [hv] at hx; cases hx
    | ok b => rw [hv] at hx; cases hx; exact .wrote _ rd _ rfl
  | store c rs a =>
    refine conditional_conclude_cases s t c _ _ h fun hx => ?_
    cases hl : s.loc a with
    | mem addr => rw [hl] at hx; exact .storeMem c rs a addr t hl hx
    | reg r =>
      rw [hl] at hx
      cases a <;> cases hl
      cases hx
      exact .storeReg c rs r
  | add c dt rd rs v => exact arith_effect _ _ _ _ _ _ _ _ _ rfl h
  | sub c dt rd rs v => exact arith_effect _ _ _ _ _ _ _ _ _ rfl h
  | mul c dt rd rs v => exact arith_effect _ _ _ _ _ _ _ _ _ rfl h
  | div c dt rd rs v => exact arith_effect _ _ _ _ _ _ _ _ _ rfl h
  | idiv c dt rd rs v => exact arith_effect _ _ _ _ _ _ _ _ _ rfl h
  | cmp c dt rs v =>
    refine conditional_conclude_cases s t c _ _ h fun hx => ?_
    cases hv : s.valT v dt with
    | error r => rw [hv] at hx; cases hx
    | ok b => rw [hv] at hx; cases hx; exact .compared c dt rs v _ _
  | not c rd rs =>
    rcases conditional_cases _ _ _ _ h with h | rfl
    · cases h; exact .wrote _ rd _ rfl
    · exact .skip _
  | and c rd rs v => exact logical_effect _ _ _ _ _ _ _ _ rfl h
  | or c rd rs v => exact logical_effect _ _ _ _ _ _ _ _ rfl h
  | xor c rd rs v => exact logical_effect _ _ _ _ _ _ _ _ rfl h
  | shr c rd rs v => exact logical_effect _ _ _ _ _ _ _ _ rfl h
  | shl c rd rs v => exact logical_effect _ _ _ _ _ _ _ _ rfl h
  | push c v =>
    refine conditional_conclude_cases s t c _ _ h fun hx => ?_
    dsimp only [bind] at hx
    cases hv : s.valZ v with
    | error r => rw [hv] at hx; cases hx
    | ok b =>
      rw [hv] at hx
      dsimp only [Except.bind] at hx
      cases hw : s.memWrite (s.readReg .sp) 4 b with
      | error r => rw [hw] at hx; cases hx
      | ok u => rw [hw] at hx; cases hx; exact .pushed c v b u hv hw
  | call c v =>
    refine conditional_conclude_cases s t c _ _ h fun hx => ?_
    dsimp only [bind] at hx
    cases hv : s.valZ v with
    | error r => rw [hv] at hx; cases hx
    | ok x =>
      rw [hv] at hx
      dsimp only [Except.bind] at hx
      cases hw : s.checkRange (s.readReg .sp) frameSize with
      | error r => rw [hw] at hx; cases hx
      | ok u => rw [hw] at hx; cases hx; exact .called c v x hv ((checkRange_ok ..).mp hw)
  | ret c =>
    refine conditional_conclude_cases s t c _ _ h fun hx => ?_
    dsimp only [bind] at hx
    cases hn : s.memRead (s.readReg .fp - 4) 4 with
    | error r => rw [hn] at hx; cases hx
    | ok n =>
      rw [hn] at hx
      dsimp only [Except.bind] at hx
      cases hw : s.checkRange (s.readReg .fp) frameSize with
      | error r => rw [hw] at hx; cases hx
      | ok u => rw [hw] at hx; cases hx; exact .returned c n hn ((checkRange_ok ..).mp hw)
  | syscall c v =>
    rcases conditional_cases _ _ _ _ h with h | rfl
    · cases hv : s.valZ v with
      | error r => rw [hv] at h; cases h; exact .fault _ r
      | ok k =>
        rw [hv] at h
        dsimp only at h
        cases hk : serviceOf k with
        | none => rw [hk] at h; cases h; exact .fault _ _
        | some sv => rw [hk] at h; exact serve_effect s t c v k sv hv hk h
    · exact .skip _

/-- The bytes at `$ip` as the word they make (rules R45, R60). -/
theorem bytesWord_bytesAtIp (s : State) :
    bytesWord s.bytesAtIp = some (s.mem.readBytes (s.readReg .ip).toNat 8) := by
  show some _ = some _
  congr 1
  apply BitVec.eq_of_getLsbD_eq
  intro j hj
  have byte := memory_readBytes_byte s.mem 8 (s.readReg .ip).toNat (j / 8) (by omega)
  have bit : (s.mem.readBytes (s.readReg .ip).toNat 8).getLsbD j =
      (s.mem.read ((s.readReg .ip).toNat + j / 8)).getLsbD (j % 8) := by
    rw [← byte, BitVec.getLsbD_extractLsb']
    simp [show j % 8 < 8 by omega, show 8 * (j / 8) + j % 8 = j by omega]
  rw [bit]
  simp only [BitVec.getLsbD_append]
  have : j / 8 = 0 ∨ j / 8 = 1 ∨ j / 8 = 2 ∨ j / 8 = 3 ∨ j / 8 = 4 ∨ j / 8 = 5 ∨ j / 8 = 6 ∨ j / 8 = 7 := by
    omega
  rcases this with h | h | h | h | h | h | h | h <;> rw [h] <;> split_ifs <;>
    first | omega | (congr 1; omega)

/-- What a step can do when it answers a next state (rules R27, R304): a fault of the fetch, a fault of
an illegal word, or the decoded instruction. -/
theorem step_cases (s t : State) (h : step s = .next t) :
    ¬ s.Halted ∧
    ((∃ r, s.fetchWord = .error r ∧ t = s.raise r) ∨
     (∃ e, s.FetchInRange ∧ decodeBytes s.bytesAtIp = .error e ∧
        t = s.advance.raise .illegalInstruction) ∨
     ∃ i, s.FetchInRange ∧ decodeBytes s.bytesAtIp = .ok i ∧ exec i s.advance = .next t) := by
  unfold step at h
  split at h
  · rename_i hr
    refine ⟨by rw [State.Halted]; exact fun hn => Bool.noConfusion (hn.symm.trans hr), ?_⟩
    cases hf : s.fetchWord with
    | error r => rw [hf] at h; cases h; exact .inl ⟨r, rfl, rfl⟩
    | ok w =>
      obtain ⟨hin, rfl⟩ := (fetchWord_ok s w).mp hf
      have hd : decodeBytes s.bytesAtIp = decode (s.mem.readBytes (s.readReg .ip).toNat 8) := by
        rw [decodeBytes, bytesWord_bytesAtIp]
      rw [hf] at h
      dsimp only at h
      split at h
      · rename_i e he; cases h; exact .inr (.inl ⟨e, hin, hd.trans he, rfl⟩)
      · rename_i i hi; exact .inr (.inr ⟨i, hin, hd.trans hi, h⟩)
  · cases h

end Sys2Proof.Machine
end

