-- ==== Sys2Proof/Laws/PerInstr.lean ====
section
/-! SUPPORT. The statements made per instruction. `OpcodeField`: the low six bits of the word of an
instruction are its opcode (rules R61, R86), whatever its operands. -/

namespace Sys2Proof.Laws

/-- Bits 5:0 of the encoded word. -/
def OpcodeField.Statement (i : Instr) : Prop := field (encode i) 0 6 = i.opcode

end Sys2Proof.Laws

namespace Sys2Proof.Laws.OpcodeField

/-- The low six bits of a word whose header stands lowest. -/
theorem header_opcode {n : Nat} (x : BitVec n) (i : Instr) (c : Cond) :
    (x ++ encodeHeader i c : BitVec (n + 10)).extractLsb' 0 6 = i.opcode := by
  ext k hk
  have h : k < 10 := by omega
  simp only [BitVec.getElem_extractLsb', Nat.zero_add]
  rw [BitVec.getLsbD_append, if_pos h]
  show BitVec.getLsbD (w := 3 + 1 + 6) (c.cc.code ++ BitVec.ofBool c.test ++ i.opcode) k = _
  rw [BitVec.getLsbD_append, if_pos hk, BitVec.getLsbD_eq_getElem]

theorem nop : Statement .nop := rfl
theorem load (c : Cond) (rd : Reg) (v : Value) : Statement (.load c rd v) := header_opcode _ _ c
theorem loadu (c : Cond) (rd : Reg) (v : Value) : Statement (.loadu c rd v) := header_opcode _ _ c
theorem store (c : Cond) (rs : Reg) (a : Addr) : Statement (.store c rs a) := header_opcode _ _ c
theorem add (c : Cond) (dt : DType) (rd rs : Reg) (v : Value) : Statement (.add c dt rd rs v) :=
  header_opcode _ _ c
theorem sub (c : Cond) (dt : DType) (rd rs : Reg) (v : Value) : Statement (.sub c dt rd rs v) :=
  header_opcode _ _ c
theorem mul (c : Cond) (dt : DType) (rd rs : Reg) (v : Value) : Statement (.mul c dt rd rs v) :=
  header_opcode _ _ c
theorem div (c : Cond) (dt : DType) (rd rs : Reg) (v : Value) : Statement (.div c dt rd rs v) :=
  header_opcode _ _ c
theorem idiv (c : Cond) (dt : DType) (rd rs : Reg) (v : Value) : Statement (.idiv c dt rd rs v) :=
  header_opcode _ _ c
theorem cmp (c : Cond) (dt : DType) (rs : Reg) (v : Value) : Statement (.cmp c dt rs v) :=
  header_opcode _ _ c
theorem not (c : Cond) (rd rs : Reg) : Statement (.not c rd rs) := header_opcode _ _ c
theorem and (c : Cond) (rd rs : Reg) (v : Value) : Statement (.and c rd rs v) := header_opcode _ _ c
theorem or (c : Cond) (rd rs : Reg) (v : Value) : Statement (.or c rd rs v) := header_opcode _ _ c
theorem xor (c : Cond) (rd rs : Reg) (v : Value) : Statement (.xor c rd rs v) := header_opcode _ _ c
theorem shr (c : Cond) (rd rs : Reg) (v : Value) : Statement (.shr c rd rs v) := header_opcode _ _ c
theorem shl (c : Cond) (rd rs : Reg) (v : Value) : Statement (.shl c rd rs v) := header_opcode _ _ c
theorem push (c : Cond) (v : Value) : Statement (.push c v) := header_opcode _ _ c
theorem call (c : Cond) (v : Value) : Statement (.call c v) := header_opcode _ _ c
theorem ret (c : Cond) : Statement (.ret c) := header_opcode _ _ c
theorem syscall (c : Cond) (v : Value) : Statement (.syscall c v) := header_opcode _ _ c

end Sys2Proof.Laws.OpcodeField
end

