-- ==== Sys2Proof/Tests/Slice0.lean ====
section
/-! SUPPORT. Tests: the refusals of `WellFormed`, the decoding of words written out in the spec, one step
of each instruction against `95_test_vectors.md` (the vector is named in each docstring), and for every
statement with hypotheses a concrete state that meets them. -/

open Sys2Proof Sys2Proof.Machine

namespace Sys2Proof.Tests

/-! ## `WellFormed` refuses (rule R87 case 8, vectors X19 and X20) -/

theorem test_wf_add : (Instr.add .always .d (.r 0) (.r 1) (.imm 5)).wf = false := by decide
theorem test_wf_sub : (Instr.sub .always .d (.r 0) (.r 1) (.mem 0x100)).wf = false := by decide
theorem test_wf_mul : (Instr.mul .always .d (.r 0) (.r 1) (.ind .sp 0)).wf = false := by decide
theorem test_wf_div : (Instr.div .always .d (.r 0) (.r 1) (.imm 5)).wf = false := by decide
theorem test_wf_idiv : (Instr.idiv .always .d (.r 0) (.r 1) (.imm 5)).wf = false := by decide
theorem test_wf_cmp : (Instr.cmp .always .d (.r 0) (.mem 0)).wf = false := by decide
theorem test_wf_double_register : (Instr.add .always .d (.r 0) (.r 1) (.reg .sp)).wf = true := by decide

/-! ## Decoding: one word of the spec for each constructor -/

/-- E1 -/
theorem test_decode_nop : decode 0x0000000000000000 = .ok .nop := by decide
/-- E4 -/
theorem test_decode_load : decode 0x0000000010042001 = .ok (.load .always (.r 2) (.mem 0x100)) := by decide
/-- T14 -/
theorem test_decode_loadu :
    decode 0x0001234567801802 = .ok (.loadu .always (.r 0) (.imm 0x12345678)) := by decide
/-- E8 -/
theorem test_decode_store : decode 0x00000000807C1803 = .ok (.store .always (.r 0) (.ind (.r 1) 8)) := by
  decide
/-- E9 -/
theorem test_decode_add : decode 0x0000000280E0D004 = .ok (.add .always .u (.r 0) (.r 1) (.imm 5)) := by
  decide
/-- A16 -/
theorem test_decode_sub : decode 0x0000000080E0C805 = .ok (.sub .always .hs (.r 0) (.r 1) (.imm 1)) := by
  decide
/-- A18 -/
theorem test_decode_mul :
    decode 0x0000000440E0D006 = .ok (.mul .always .u (.r 0) (.r 1) (.reg (.r 2))) := by decide
/-- A34 -/
theorem test_decode_div : decode 0x0000000000E0D0C7 = .ok (.div (.on .eq) .u (.r 0) (.r 1) (.imm 0)) := by
  decide
/-- A27 -/
theorem test_decode_idiv :
    decode 0x7FFFFFFF00E0D808 = .ok (.idiv .always .s (.r 0) (.r 1) (.imm 0xFFFFFFFE)) := by decide
/-- B15 -/
theorem test_decode_cmp : decode 0x0000000003C0D409 = .ok (.cmp .always .d (.r 0) (.reg (.r 1))) := by
  decide
/-- E12 -/
theorem test_decode_not : decode 0x00000000001C180A = .ok (.not .always (.r 0) (.r 1)) := by decide
/-- E13 -/
theorem test_decode_and : decode 0x0000000FF01C180B = .ok (.and .always (.r 0) (.r 1) (.imm 0xFF)) := by
  decide
/-- G7 -/
theorem test_decode_or :
    decode 0x00000000881C180C = .ok (.or .always (.r 0) (.r 1) (.reg (.r 2))) := by decide
/-- T22 -/
theorem test_decode_xor : decode 0x000000009824240D = .ok (.xor .always (.r 3) (.r 3) (.reg (.r 3))) := by
  decide
/-- G9 -/
theorem test_decode_shr : decode 0x00000002001C180E = .ok (.shr .always (.r 0) (.r 1) (.imm 32)) := by
  decide
/-- G14 -/
theorem test_decode_shl : decode 0x00000000401C180F = .ok (.shl .always (.r 0) (.r 1) (.imm 4)) := by
  decide
/-- K5 -/
theorem test_decode_push : decode 0x00000FFFFF802C10 = .ok (.push .always (.ind .fp (-8))) := by decide
/-- F5 -/
theorem test_decode_call : decode 0x00000000001000D1 = .ok (.call (.on .eq) (.imm 0x100)) := by decide
/-- E16 -/
theorem test_decode_ret : decode 0x00000000000000D2 = .ok (.ret (.on .eq)) := by decide
/-- Y16 -/
theorem test_decode_syscall : decode 0x000000000000A813 = .ok (.syscall .always (.reg (.r 4))) := by decide

/-! One word of each format, field by field from its layout, high field first (rules R73 to R83). -/

/-- Format `RV` (rule R75): `load?lt $s8 -1($s1)`. -/
theorem test_fields_RV :
    decode (0#12 ++ 0xFFFFFF#24 ++ 22#8 ++ 0b11#2 ++ 29#8 ++ 0b010#3 ++ 1#1 ++ 1#6) =
      .ok (.load (.on .lt) (.s 7) (.ind (.s 0) (-1))) := by decide
/-- Format `RA` (rule R76): `store $ret (4096)`. -/
theorem test_fields_RA :
    decode (0#12 ++ 4096#32 ++ 0b01#2 ++ 4#8 ++ 0#3 ++ 0#1 ++ 3#6) =
      .ok (.store .always .ret (.mem 4096)) := by decide
/-- Format `TRRV` (rule R77): `idivf?nz $r16 $zero $flag`. -/
theorem test_fields_TRRV :
    decode (0#1 ++ 0#24 ++ 3#8 ++ 0b10#2 ++ 5#8 ++ 21#8 ++ 0b001#3 ++ 0b101#3 ++ 1#1 ++ 8#6) =
      .ok (.idiv (.on .nz) .f (.r 15) .zero (.reg .flag)) := by decide
/-- Format `RRV` (rule R78): `xor $ip $sp 7`. -/
theorem test_fields_RRV :
    decode (0#4 ++ 7#32 ++ 0b00#2 ++ 1#8 ++ 0#8 ++ 0#3 ++ 0#1 ++ 13#6) =
      .ok (.xor .always .ip .sp (.imm 7)) := by decide
/-- Format `TRV` (rule R79): `cmphs?ge $fp 2`. -/
theorem test_fields_TRV :
    decode (0#9 ++ 2#32 ++ 0b00#2 ++ 2#8 ++ 0b010#3 ++ 0b111#3 ++ 1#1 ++ 9#6) =
      .ok (.cmp (.on .ge) .hs .fp (.imm 2)) := by decide
/-- Format `RR` (rule R80): `not?gt $r1 $s2`. -/
theorem test_fields_RR :
    decode (0#38 ++ 23#8 ++ 6#8 ++ 0b110#3 ++ 1#1 ++ 10#6) = .ok (.not (.on .gt) (.r 0) (.s 1)) := by decide
/-- Format `V` (rule R83): `syscall?z 11`. -/
theorem test_fields_V :
    decode (0#20 ++ 11#32 ++ 0b00#2 ++ 0b100#3 ++ 1#1 ++ 19#6) = .ok (.syscall (.on .z) (.imm 11)) := by
  decide
/-- Format `Z` (rule R74): `ret?le`. -/
theorem test_fields_Z : decode (0#54 ++ 0b011#3 ++ 1#1 ++ 18#6) = .ok (.ret (.on .le)) := by decide

/-- E17: a code without `test` is legal. -/
theorem test_decode_unused_code :
    decode 0x0000000280E0D384 = .ok (.add ⟨false, .ge⟩ .u (.r 0) (.r 1) (.imm 5)) := by decide
/-- X1, X3, X5, X12, X15, X16, X18, X20: each case of rule R87, rejected by name. -/
theorem test_decode_illegal :
    [0x0000000000000014, 0x0000000000000040, 0x0000000000000412, 0x0000000000007801,
      0x0000000010681801, 0x0000000000501803, 0x0000000280E0DC04, 0x0000008020E0D404].map decode =
      [.error .unassignedOpcode, .error .nopBits, .error .mustBeZero, .error .registerNumber,
        .error .registerData, .error .immediateAddr, .error .reservedType, .error .doubleOperand] := by
  decide
/-- E14 as the table numbers its bits, and the refusal of X4 and of bytes that are no word. -/
theorem test_table_word :
    decodeTableWord 64 0x5010 = some (.push .always (.imm 5)) ∧ decodeTableWord 64 (2 ^ 63) = none ∧
      decodeBytes [0, 0] = .error .wrongLength := by decide

/-! ## One step of each instruction -/

/-- Running at address 1000 (hexadecimal), as the vectors start. -/
def start : State := { State.reset with regs := { State.reset.regs with ip := 0x1000 } }

/-- The state after one step over a word at `$ip`. -/
def after (w : Nat) (s : State) : Option State :=
  match step (s.withFetchWord 64 w) with
  | .next t => some t
  | _ => none

/-- A register and `$flag` after one step over a word. -/
def seen (w : Nat) (s : State) (r : Reg) : Option (Word × Word) :=
  (after w s).map fun t => (t.readReg r, t.readReg .flag)

/-- The word at an address and `$flag` after one step over a word. -/
def stored (w : Nat) (s : State) (a : Nat) : Option (Word × Word) :=
  (after w s).map fun t => (t.mem.readBytes a 8, t.readReg .flag)

/-- `s` with bytes of memory. -/
def withBytes (s : State) (a : Nat) (bs : List Byte) : State := { s with mem := s.mem.writeList a bs }

/-- `s` with a condition code in the flags, as in the vectors. -/
def withFlag (s : State) (w : Word) : State := s.writeReg .flag w

/-- E1, rule R240 -/
theorem test_nop : seen 0 start .ip = some (0x1008, 0x10) := by decide
/-- T5 -/
theorem test_load :
    seen 0x0000000010042001 (withBytes start 0x100 [0x88, 0x77, 0x66, 0x55, 0x44]) (.r 2) =
      some (0x0000000055667788, 0x10) := by decide
/-- T9 -/
theorem test_load_flag : seen 0x0000000001800C01 start .flag = some (0x10, 0x10) := by decide
/-- T16 -/
theorem test_loadu :
    seen 0x0000000000781802 ((start.writeReg (.r 0) 1).writeReg (.r 1) 0xAAAAAAAA00000002) (.r 0) =
      some (0x0000000200000001, 0x10) := by decide
/-- T15 -/
theorem test_loadu_zero :
    seen 0x0000000000001802 (start.writeReg (.r 0) 0xFFFFFFFF00000000) (.r 0) = some (0, 0x18) := by decide
/-- T17 -/
theorem test_store :
    stored 0x0000000020041803
      (withBytes (start.writeReg (.r 0) 0x1122334455667788) 0x200 (List.replicate 8 0xEE)) 0x200 =
      some (0xEEEEEEEE55667788, 0x10) := by decide
/-- T19 -/
theorem test_store_register :
    seen 0x0000000000781803 (start.writeReg (.r 1) 5) (.r 1) = some (0, 0x10) := by decide
/-- A7 -/
theorem test_add :
    seen 0x0000000080E0C804 (start.writeReg (.r 1) 0xAAAAAAAA7FFFFFFF) (.r 0) =
      some (0xFFFFFFFF80000000, 0x10) := by decide
/-- A10 -/
theorem test_add_ip : seen 0x0000000800001004 start .ip = some (0x1018, 0x10) := by decide
/-- A15 -/
theorem test_sub : seen 0x0000000080E0C005 start (.r 0) = some (0x00000000FFFFFFFF, 0x10) := by decide
/-- A14 -/
theorem test_sub_wraps : seen 0x0000000080E0D005 start (.r 0) = some (0xFFFFFFFFFFFFFFFF, 0x10) := by
  decide
/-- A20 -/
theorem test_mul :
    seen 0x7FFFFFFF80E0D806 (start.writeReg (.r 1) 0xFFFFFFFFFFFFFFFF) (.r 0) = some (1, 0x10) := by decide
/-- A21 -/
theorem test_mul_unsigned :
    seen 0x7FFFFFFF80E0D006 (start.writeReg (.r 1) 0xFFFFFFFFFFFFFFFF) (.r 0) =
      some (0xFFFFFFFF00000001, 0x10) := by decide
/-- A24 -/
theorem test_div :
    seen 0x0000000100E0D807 (start.writeReg (.r 1) (-7)) (.r 0) = some (-4, 0x10) := by decide
/-- A32 -/
theorem test_div_zero :
    seen 0x0000000000E0D007 (start.writeReg (.r 0) 3) (.r 0) = some (3, 0x20) := by decide
/-- A26 -/
theorem test_idiv :
    seen 0x0000000100E0D008 (start.writeReg (.r 1) 0xFFFFFFFFFFFFFFF9) (.r 0) =
      some (0x7FFFFFFFFFFFFFFC, 0x10) := by decide
/-- A30 -/
theorem test_idiv_min :
    seen 0x7FFFFFFF80E0C808 (start.writeReg (.r 1) 0x0000000080000000) (.r 0) =
      some (0xFFFFFFFF80000000, 0x10) := by decide
/-- B8 -/
theorem test_cmp : seen 0x000000000000D009 (start.writeReg (.r 0) 5) (.r 0) = some (5, 0x1E) := by decide
/-- B13 -/
theorem test_cmp_signed :
    seen 0x0000000003C0C809 (start.writeReg (.r 0) 0x0000000080000000) .ip = some (0x1008, 0x1A) := by
  decide
/-- G1 -/
theorem test_not : seen 0x00000000001C180A start (.r 0) = some (0xFFFFFFFFFFFFFFFF, 0x10) := by decide
/-- G4 -/
theorem test_and :
    seen 0x0FFFFFFFF01C180B (start.writeReg (.r 1) 0x1122334455667788) (.r 0) =
      some (0x0000000055667788, 0x10) := by decide
/-- G6 -/
theorem test_or : seen 0x000000000018180C start (.r 0) = some (0, 0x18) := by decide
/-- G8 -/
theorem test_xor :
    seen 0x0FFFFFFFF01C180D (start.writeReg (.r 1) 0xFFFFFFFFFFFFFFFF) (.r 0) =
      some (0xFFFFFFFF00000000, 0x10) := by decide
/-- G11 -/
theorem test_shr :
    seen 0x00000003F01C180E (start.writeReg (.r 1) 0x8000000000000000) (.r 0) = some (1, 0x10) := by decide
/-- G17 -/
theorem test_shl :
    seen 0x00000000881C180F ((start.writeReg (.r 1) 5).writeReg (.r 2) 0x0000000100000001) (.r 0) =
      some (0, 0x18) := by decide
/-- K3 -/
theorem test_push :
    stored 0x0000000000001810 (start.writeReg .sp 0x8004) 0x8004 = some (0x8004, 0x10) := by decide
/-- K6 -/
theorem test_push_fault :
    seen 0x0000000000001010 (start.writeReg .sp 0xFFFD) .sp = some (0xFFFD, 0x20) := by decide

/-- The state of F1 before its step. -/
def beforeCall : State :=
  (((start.writeReg .sp 0x8008).writeReg .fp 0x8000).writeReg (.s 0) 0x51).writeReg (.s 7) 0x58

/-- F1: the registers. -/
theorem test_call :
    (after 0x0000000000100011 beforeCall).map
      (fun t => [t.readReg .fp, t.readReg .sp, t.readReg .ip, t.readReg .flag]) =
      some [0x8008, 0x8058, 0x100, 0x10] := by decide
/-- F1: the old `$fp`, the old `$ip`, `$s1` and `$s8` in the frame. -/
theorem test_call_frame :
    (after 0x0000000000100011 beforeCall).map
      (fun t => [0x8008, 0x8010, 0x8018, 0x8050].map fun a => (t.mem.readBytes a 8 : Word)) =
      some [0x8000, 0x1008, 0x51, 0x58] := by decide

/-- The state of F6 before its step, as far as it is tested. -/
def beforeRet : State :=
  withBytes (withBytes (withBytes (withBytes ((start.writeReg .fp 0x8008).writeReg .sp 0x9000)
    0x8004 [2]) 0x8008 [0x00, 0x80]) 0x8010 [0x28]) 0x8050 [0x58]

/-- F6 -/
theorem test_ret :
    (after 0x0000000000000012 beforeRet).map
      (fun t => [t.readReg .ip, t.readReg .fp, t.readReg .sp, t.readReg (.s 7), t.readReg .flag]) =
      some [0x28, 0x8000, 0x7FFC, 0x58, 0x10] := by decide
/-- F8 -/
theorem test_ret_fault : seen 0x0000000000000012 (start.writeReg .fp 0) .fp = some (0, 0x20) := by decide
/-- Y5 -/
theorem test_syscall_print :
    (after 0x0000000000005013 (withBytes (start.writeReg (.r 0) 0x400) 0x400 [0x48, 0x69])).map
      (fun t => t.output) = some [.printString [0x48, 0x69]] := by decide
/-- Y15 -/
theorem test_syscall_exit2 :
    seen 0x000000000000C013 ((start.writeReg (.r 0) 3).writeReg .ret 9) .ret = some (3, 0x00) := by decide

/-- A table word runs as the first instruction after reset. -/
theorem test_first_instruction : seen 0x5010 State.reset .sp = some (0x8004, 0x10) := by decide
/-- T21, T22, F10, F12: pseudo-instructions and the words the spec gives for them. -/
theorem test_expand :
    (assemble (some 2) [.loadw (.r 0) 0x123456789ABCDEF0, .zero .always (.r 3), .ldarg .always (.r 0) 0,
      .ldarg .always (.r 1) 1]).map (·.map encode) =
      some [0x0009ABCDEF001801, 0x0001234567801802, 0x000000009824240D, 0x000FFFFF402C1801,
        0x000FFFFF802C1C01] := by decide

/-! ## Concrete inputs that meet the hypotheses of each statement

A condition that passes and one that fails; states at the bounds of memory (`MEM_SIZE` = 10000). -/

/-- `start` with a word at `$ip`. -/
def holding (w : Nat) : State := start.withFetchWord 64 w

/-- `start` with `$flag` = 12 (less) and a word at `$ip`. -/
def holdingLess (w : Nat) : State := (withFlag start 0x12).withFetchWord 64 w

/-- `start` with another configuration. -/
def under (f : Config → Config) : State := { start with cfg := f start.cfg }

/-- `start` with answers pending. -/
def answering (l : List InputAnswer) : State := { start with input := l }

theorem running_start : ¬ start.Halted := by unfold State.Halted; decide
theorem memOk_start : start.MemOk := ⟨rfl, by decide⟩
theorem memOk_writeReg (r : Reg) (v : Word) : (start.writeReg r v).MemOk := by
  cases r <;> exact ⟨rfl, fun _ h => nomatch h⟩
theorem passes_start : start.Passes .always := rfl

theorem witness_DecodeOfEncode : (Instr.add (.on .lt) .d .ip (.s 7) (.reg .zero)).wf = true := by decide
theorem witness_EncodeOfDecode :
    decode 0x000FFFFFC02C2001 = .ok (.load .always (.r 2) (.ind .fp (-4))) := by decide

/-- One word for each case of rule R87: X1, X3, X6, X12, X13, X15, X16, X17, X19. -/
theorem witness_IllegalWord :
    IllegalWord 0x14 ∧ IllegalWord 0x40 ∧ IllegalWord 0x0010000000001801 ∧ IllegalWord 0x7801 ∧
      IllegalWord 0x0000000001E81801 ∧ IllegalWord 0x0000000010681801 ∧ IllegalWord 0x501803 ∧
      IllegalWord 0x0000000280E0CC04 ∧ IllegalWord 0x0000000280E0D404 := by
  refine ⟨.inl (by decide), .inr (.inl (by decide)), .inr (.inr ⟨by decide, by decide, ?_⟩),
    .inr (.inr ⟨by decide, by decide, ?_⟩), .inr (.inr ⟨by decide, by decide, ?_⟩),
    .inr (.inr ⟨by decide, by decide, ?_⟩), .inr (.inr ⟨by decide, by decide, ?_⟩),
    .inr (.inr ⟨by decide, by decide, ?_⟩), .inr (.inr ⟨by decide, by decide, ?_⟩)⟩
  · exact .inl (by decide)
  · exact .inr (.inl ⟨10, by decide, by decide⟩)
  · exact .inr (.inr (.inl ⟨18, by decide, by decide, by decide⟩))
  · exact .inr (.inr (.inr (.inl ⟨18, by decide, by decide, by decide⟩)))
  · exact .inr (.inr (.inr (.inr (.inl (by decide)))))
  · exact .inr (.inr (.inr (.inr (.inr (.inl (by decide))))))
  · exact .inr (.inr (.inr (.inr (.inr (.inr ⟨by decide, by decide, 29, by decide, by decide⟩)))))

/-- The last place an instruction fits. -/
theorem witness_StepRunsDecodedInstruction :
    let s := (start.writeReg .ip 0xFFF8).withFetchWord 64 0x5010
    ¬ s.Halted ∧ s.FetchInRange ∧ decodeBytes s.bytesAtIp = .ok (.push .always (.imm 5)) := by
  unfold State.Halted State.FetchInRange; decide
theorem witness_IllegalWordFaults :
    let s := holding 0x14
    ¬ s.Halted ∧ s.FetchInRange ∧ s.bytesAtIp = wordBytes 0x14 ∧ IllegalWord 0x14 :=
  ⟨by unfold State.Halted; decide, by unfold State.FetchInRange; decide, by decide, .inl (by decide)⟩
theorem witness_FetchOutOfRangeFaults :
    let s := start.writeReg .ip 0xFFF9
    ¬ s.Halted ∧ ¬ s.FetchInRange := by unfold State.Halted State.FetchInRange; decide
theorem witness_HaltedTakesNoStep :
    (withFlag start 0).Halted ∧ step (withFlag start 0) = .fault .halted ∧ ¬ start.Halted ∧
      ∃ t, step start = .next t :=
  ⟨by unfold State.Halted; decide, rfl, running_start, _, rfl⟩
theorem witness_FailedConditionSkips :
    let i := Instr.div (.on .eq) .u (.r 0) (.r 1) (.imm 0)
    let s := holdingLess 0x0000000000E0D0C7
    i.passes s = false ∧ ¬ s.Halted ∧ s.FetchInRange ∧ decodeBytes s.bytesAtIp = .ok i := by
  unfold State.Halted State.FetchInRange; decide

/-- The last address in range and the first out of range, for each width. -/
theorem witness_MemReadBytes :
    (∃ b, start.memRead 0xFFFF 1 = .ok b) ∧ start.memRead 0x10000 1 = .error (.memRange 0x10000) ∧
      (∃ b, start.memRead 0xFFFC 4 = .ok b) ∧ start.memRead 0xFFFD 4 = .error (.memRange 0xFFFD) ∧
      (∃ b, start.memRead 0xFFF8 8 = .ok b) ∧ start.memRead 0xFFF9 8 = .error (.memRange 0xFFF9) :=
  ⟨⟨_, rfl⟩, by decide, ⟨_, rfl⟩, by decide, ⟨_, rfl⟩, by decide⟩
theorem witness_MemWriteBytes :
    start.MemOk ∧ (0xFFF8 : Word).toNat + 8 ≤ start.cfg.memSize ∧
      start.cfg.memSize < (0xFFF9 : Word).toNat + 8 ∧
      (0xFFFC : Word).toNat + 4 ≤ start.cfg.memSize ∧ start.cfg.memSize < (0xFFFD : Word).toNat + 4 ∧
      (0xFFFF : Word).toNat + 1 ≤ start.cfg.memSize ∧ start.cfg.memSize < (0x10000 : Word).toNat + 1 :=
  ⟨memOk_start, by decide⟩
theorem witness_MixedWidthAccess :
    start.MemOk ∧ start.cfg.Sound ∧ ∃ t, start.memWrite 0xFFF8 8 (0x1122334455667788 : Word) = .ok t :=
  ⟨memOk_start, by decide, _, rfl⟩
/-- Memory operands at the last address in range and the first out of it; T12 and T13 for the offset. -/
theorem witness_UntypedOperand :
    (0xFFFC : Half).toNat + 4 ≤ start.cfg.memSize ∧ start.cfg.memSize < (0xFFFD : Half).toNat + 4 ∧
      start.valZ (.mem 0xFFFD) = .error (.memRange 0xFFFD) ∧
      (start.writeReg (.r 1) 0x10004).valZ (.ind (.r 1) (-8)) = .ok 0 ∧
      (start.writeReg (.r 1) 4).valZ (.ind (.r 1) (-8)) = .error (.memRange 0xFFFFFFFFFFFFFFFC) := by
  decide
theorem witness_TypedOperand :
    start.opRead (.reg .sp) = .ok (.full 0x8000) ∧ start.opRead (.imm 0xFFFFFFFF) = .ok (.half 0xFFFFFFFF) ∧
      start.opRead (.mem 0xFFFD) = .error (.memRange 0xFFFD) := by decide
theorem witness_OperandFaultIsPrecise :
    start.Passes .always ∧ start.opRead (.mem 0xFFFD) = .error (.memRange 0xFFFD) := ⟨rfl, by decide⟩

theorem witness_LoadResult : start.Passes .always ∧ start.valZ (.imm 5) = .ok 5 := ⟨rfl, by decide⟩
theorem witness_LoaduResult :
    (withFlag start 0x11).Passes (.on .eq) ∧ (withFlag start 0x11).valZ (.reg .sp) = .ok 0x8000 :=
  ⟨by unfold State.Passes; decide, by decide⟩
/-- The last place in range, the first out of it, and a register. -/
theorem witness_StoreResult :
    start.Passes .always ∧ start.MemOk ∧ start.loc (.mem 0xFFFC) = .mem 0xFFFC ∧
      (0xFFFC : Word).toNat + 4 ≤ start.cfg.memSize ∧ start.loc (.mem 0xFFFD) = .mem 0xFFFD ∧
      start.cfg.memSize < (0xFFFD : Word).toNat + 4 ∧
      (start.writeReg (.r 1) 4).loc (.ind (.r 1) (-8)) = .mem 0xFFFFFFFFFFFFFFFC :=
  ⟨rfl, memOk_start, by decide⟩

/-- An operand of each width under each integer type. -/
theorem witness_IntegerAddSubMul :
    start.Passes .always ∧ IsInteger .hu ∧ IsInteger .u ∧ IsInteger .hs ∧ IsInteger .s ∧
      start.valT (.imm 0xFFFFFFFF) .s = .ok (-1 : Word) ∧ start.valT (.imm 0xFFFFFFFF) .hs = .ok (-1 : Half) ∧
      start.valT (.imm 0xFFFFFFFF) .u = .ok (0xFFFFFFFF : Word) ∧
      start.valT (.reg .sp) .hu = .ok (0x8000 : Half) :=
  ⟨rfl, by unfold IsInteger; decide, by unfold IsInteger; decide, by unfold IsInteger; decide,
    by unfold IsInteger; decide, rfl, rfl, rfl, rfl⟩
theorem witness_UnsignedDivision :
    start.Passes .always ∧ start.valT (.imm 5) .u = .ok (5 : Word) ∧ (5 : Word) ≠ 0 ∧
      start.valT (.imm 5) .hu = .ok (5 : Half) ∧ (5 : Half) ≠ 0 := ⟨rfl, rfl, by decide, rfl, by decide⟩
theorem witness_SignedFloorDivision :
    start.Passes .always ∧ start.valT (.imm 0xFFFFFFFF) .s = .ok (-1 : Word) ∧ (-1 : Word) ≠ 0 ∧
      start.valT (.imm 0xFFFFFFFF) .hs = .ok (-1 : Half) ∧ (-1 : Half) ≠ 0 ∧
      start.cfg.intDiv = .floor := ⟨rfl, rfl, by decide, rfl, by decide, rfl⟩
/-- A negative and a nonnegative quotient. -/
theorem witness_SignedTruncatingDivision :
    let s := (under fun c => { c with intDiv := .truncate }).writeReg (.r 1) (-7)
    s.Passes .always ∧ s.valT (.imm 2) .s = .ok (2 : Word) ∧ (2 : Word) ≠ 0 ∧ s.cfg.intDiv = .truncate ∧
      ((s.regT (.r 1) .s).toInt : ℚ) / ((2 : Word).toInt : ℚ) < 0 ∧
      0 ≤ ((s.regT .sp .s).toInt : ℚ) / ((2 : Word).toInt : ℚ) := by
  refine ⟨rfl, rfl, by decide, rfl, ?_, ?_⟩
  · have h : ((((under fun c => { c with intDiv := .truncate }).writeReg (.r 1) (-7)).regT (.r 1) .s).toInt)
        = -7 := by decide
    have h2 : (2 : Word).toInt = 2 := by decide
    rw [h, h2]; norm_num
  · have h : ((((under fun c => { c with intDiv := .truncate }).writeReg (.r 1) (-7)).regT .sp .s).toInt)
        = 0x8000 := by decide
    have h2 : (2 : Word).toInt = 2 := by decide
    rw [h, h2]; norm_num
/-- A32 and A33: the 64-bit and the 32-bit divisor. -/
theorem witness_DivisionByZeroFaults :
    let s := start.writeReg (.r 2) 0x0000000100000000
    s.Passes .always ∧ IsInteger .u ∧ s.valT (.imm 0) .u = .ok 0 ∧ IsInteger .hu ∧
      s.valT (.reg (.r 2)) .hu = .ok 0 :=
  ⟨rfl, by unfold IsInteger; decide, rfl, by unfold IsInteger; decide, rfl⟩
theorem witness_FloatArithmetic :
    start.Passes .always ∧ start.valT (.imm 0x3F800000) .f = .ok (0x3F800000 : Half) := ⟨rfl, rfl⟩
theorem witness_DoubleArithmetic : (withFlag start 0x12).Passes (.on .lt) := by
  unfold State.Passes; decide
theorem witness_CompareResult :
    start.Passes .always ∧ start.valT (.imm 10) .u = .ok (10 : Word) ∧
      start.valT (.imm 0xFFFFFFFF) .hs = .ok (-1 : Half) ∧ start.valT (.reg .sp) .d = .ok (0x8000 : Word) :=
  ⟨rfl, rfl, rfl, rfl⟩
theorem witness_FloatCompareCode :
    start.Passes .always ∧ start.valT (.mem 0) .f = .ok (0 : Half) := ⟨rfl, rfl⟩
theorem witness_BitwiseResults :
    start.Passes .always ∧ start.valZ (.imm 0xFFFFFFFF) = .ok 0xFFFFFFFF := ⟨rfl, by decide⟩
/-- Amounts 63 and 64. -/
theorem witness_ShiftResults :
    start.Passes .always ∧ start.valZ (.imm 63) = .ok 63 ∧ start.valZ (.imm 64) = .ok 64 ∧
      64 ≤ (64 : Word).toNat := ⟨rfl, by decide⟩

/-- K7 and K6: the last push and the first that faults. -/
theorem witness_PushResult :
    (start.writeReg .sp 0xFFFC).Passes .always ∧ (start.writeReg .sp 0xFFFC).MemOk ∧
      (start.writeReg .sp 0xFFFC).valZ (.imm 1) = .ok 1 ∧
      ((start.writeReg .sp 0xFFFC).readReg .sp).toNat + 4 ≤ (start.writeReg .sp 0xFFFC).cfg.memSize ∧
      (start.writeReg .sp 0xFFFD).Passes .always ∧ (start.writeReg .sp 0xFFFD).MemOk ∧
      (start.writeReg .sp 0xFFFD).valZ (.imm 1) = .ok 1 ∧
      (start.writeReg .sp 0xFFFD).cfg.memSize < ((start.writeReg .sp 0xFFFD).readReg .sp).toNat + 4 :=
  ⟨rfl, memOk_writeReg _ _, by decide, by decide, rfl, memOk_writeReg _ _, by decide, by decide⟩
/-- A frame that ends at the end of memory, and one that does not fit. -/
theorem witness_CallResult :
    (start.writeReg .sp 0xFFB0).Passes .always ∧ (start.writeReg .sp 0xFFB0).MemOk ∧
      (start.writeReg .sp 0xFFB0).valZ (.imm 0x100) = .ok 0x100 ∧
      ((start.writeReg .sp 0xFFB0).readReg .sp).toNat + 80 ≤ (start.writeReg .sp 0xFFB0).cfg.memSize ∧
      (start.writeReg .sp 0xFFB1).Passes .always ∧ (start.writeReg .sp 0xFFB1).MemOk ∧
      (start.writeReg .sp 0xFFB1).valZ (.imm 0x100) = .ok 0x100 ∧
      (start.writeReg .sp 0xFFB1).cfg.memSize < ((start.writeReg .sp 0xFFB1).readReg .sp).toNat + 80 :=
  ⟨rfl, memOk_writeReg _ _, by decide, by decide, rfl, memOk_writeReg _ _, by decide, by decide⟩
/-- F6; a count below address 0 (F8); a frame that does not fit. -/
theorem witness_RetResult :
    beforeRet.Passes .always ∧ beforeRet.memRead (beforeRet.readReg .fp - 4) 4 = .ok (2 : Half) ∧
      (beforeRet.readReg .fp).toNat + 80 ≤ beforeRet.cfg.memSize ∧
      (start.writeReg .fp 0).memRead ((start.writeReg .fp 0).readReg .fp - 4) 4 =
        .error (.memRange 0xFFFFFFFFFFFFFFFC) ∧
      (start.writeReg .fp 0xFFB1).memRead ((start.writeReg .fp 0xFFB1).readReg .fp - 4) 4 = .ok (0 : Half) ∧
      (start.writeReg .fp 0xFFB1).cfg.memSize < ((start.writeReg .fp 0xFFB1).readReg .fp).toNat + 80 :=
  ⟨rfl, rfl, by decide, rfl, rfl, by decide⟩
/-- The callee is empty. -/
theorem witness_CallThenRetRestores :
    ∃ t, start.Passes .always ∧ start.MemOk ∧ start.valZ (.imm 0x100) = .ok 0x100 ∧
      (start.readReg .sp).toNat + 80 ≤ start.cfg.memSize ∧
      exec (.call .always (.imm 0x100)) start = .next t ∧
      t.memRead (start.readReg .sp - 4) 4 = .ok (0 : Half) ∧ t.Passes .always :=
  ⟨_, rfl, memOk_start, by decide, by decide, rfl, rfl, rfl⟩

theorem witness_PrintServices :
    start.Passes .always ∧ start.valZ (.imm 1) = .ok 1 ∧ start.valZ (.imm 2) = .ok 2 ∧
      start.valZ (.imm 3) = .ok 3 ∧ start.valZ (.imm 4) = .ok 4 := ⟨rfl, by decide⟩
/-- Y5, and a string that runs to the end of memory (Y6). -/
theorem witness_PrintStringService :
    let s := withBytes (start.writeReg (.r 0) 0x400) 0x400 [0x48, 0x69]
    let u := withBytes (start.writeReg (.r 0) 0xFFFE) 0xFFFE [0x41, 0x42]
    s.Passes .always ∧ s.valZ (.imm 5) = .ok 5 ∧ (s.readReg (.r 0)).toNat + 2 < s.cfg.memSize ∧
      (∀ k, k < 2 → s.byteAt ((s.readReg (.r 0)).toNat + k) ≠ 0) ∧
      s.byteAt ((s.readReg (.r 0)).toNat + 2) = 0 ∧
      u.Passes .always ∧ u.valZ (.imm 5) = .ok 5 ∧
      ∀ a, (u.readReg (.r 0)).toNat ≤ a → a < u.cfg.memSize → u.byteAt a ≠ 0 := by
  refine ⟨rfl, by decide, by decide, by decide, by decide, rfl, by decide, fun a h h' => ?_⟩
  have hlo : 0xFFFE ≤ a := h
  have hhi : a < 0x10000 := h'
  obtain rfl | rfl : a = 0xFFFE ∨ a = 0xFFFF := by omega
  · decide
  · decide
theorem witness_ReadServices :
    start.Passes .always ∧ start.valZ (.imm 6) = .ok 6 ∧ start.valZ (.imm 7) = .ok 7 ∧
      start.valZ (.imm 8) = .ok 8 ∧ start.valZ (.imm 9) = .ok 9 ∧
      (answering [.int 7]).input = .int 7 :: [] ∧
      (answering [.float 0x40490FDB]).input = .float 0x40490FDB :: [] ∧
      (0x40490FDB : Word).toNat = (0x40490FDB : Half).toNat ∧
      (answering [.double 9]).input = .double 9 :: [] ∧ (answering [.char 0x41]).input = .char 0x41 :: [] :=
  ⟨rfl, by decide⟩
/-- No answer, an answer of another kind, and a string with a zero byte. -/
theorem witness_ReadWithoutAnswerIsStuck :
    start.Passes .always ∧ start.valZ (.imm 6) = .ok 6 ∧ (∀ x rest, start.input ≠ .int x :: rest) ∧
      (answering [.char 1]).Passes .always ∧ (answering [.char 1]).valZ (.imm 7) = .ok 7 ∧
      (∀ x rest, (answering [.char 1]).input ≠ .float x :: rest) ∧
      (answering [.string [1, 0]]).Passes .always ∧ (answering [.string [1, 0]]).valZ (.imm 10) = .ok 10 ∧
      (∀ bs rest, (answering [.string [1, 0]]).input = .string bs :: rest → 0 ∈ bs) := by
  refine ⟨rfl, by decide, fun x rest h => ?_, rfl, by decide, fun x rest h => ?_, rfl, by decide,
    fun bs rest h => ?_⟩
  · cases h
  · cases h
  · cases h; decide

/-- Y11 and Y12 under both readings of `READ_STRING_TERM`, and a buffer that does not fit. -/
theorem witness_ReadStringService :
    let l : List InputAnswer := [.string [0x48, 0x45, 0x4C, 0x4C, 0x4F]]
    let s := ((answering l).writeReg (.r 0) 0x500).writeReg (.r 1) 3
    let u : State := { s with cfg := { s.cfg with readStringTerm := .inside } }
    let z := u.writeReg (.r 1) 0
    let f := s.writeReg (.r 0) 0xFFFD
    (s.Passes .always ∧ s.MemOk ∧ s.valZ (.imm 10) = .ok 10 ∧ s.input = l ∧
      s.cfg.readStringTerm = .outside ∧
      [0x48, 0x45, 0x4C, 0x00] =
        [0x48, 0x45, 0x4C, 0x4C, 0x4F].take (s.readReg (.r 1)).toNat ++ ([0] : List Byte) ∧
      (s.readReg (.r 0)).toNat + 4 ≤ s.cfg.memSize) ∧
    (u.cfg.readStringTerm = .inside ∧ u.readReg (.r 1) ≠ 0 ∧
      [0x48, 0x45, 0x00] =
        [0x48, 0x45, 0x4C, 0x4C, 0x4F].take ((u.readReg (.r 1)).toNat - 1) ++ ([0] : List Byte)) ∧
    (z.cfg.readStringTerm = .inside ∧ z.readReg (.r 1) = 0) ∧
    f.cfg.memSize < (f.readReg (.r 0)).toNat + 4 :=
  ⟨⟨rfl, ⟨rfl, by decide⟩, by decide, rfl, rfl, by decide, by decide⟩, by decide, by decide, by decide⟩
theorem witness_ExitServices :
    start.Passes .always ∧ start.valZ (.imm 11) = .ok 11 ∧ start.valZ (.imm 12) = .ok 12 := ⟨rfl, by decide⟩
theorem witness_UnknownServiceFaults :
    start.Passes .always ∧ start.valZ (.imm 0) = .ok 0 ∧ start.valZ (.imm 13) = .ok 13 := ⟨rfl, by decide⟩

theorem witness_NopDoesNothing :
    ¬ start.Halted ∧ start.FetchInRange ∧ start.bytesAtIp = List.replicate 8 0 := by
  unfold State.Halted State.FetchInRange; decide
theorem witness_StepKeepsMemoryCanonical :
    (holding 0x5010).MemOk ∧ ∃ t, step (holding 0x5010) = .next t := ⟨⟨rfl, by decide⟩, _, rfl⟩
theorem witness_ZeroRegisterDiscardsWrites :
    (Instr.load .always .zero (.imm 5)).zDest = some .zero ∧
      ∃ t, exec (.load .always .zero (.imm 5)) start = .next t := ⟨rfl, _, rfl⟩
theorem witness_StepKeepsConfiguration : ∃ t, step (holding 0x501801) = .next t := ⟨_, rfl⟩
/-- An instruction, and a service other than `read_string`. -/
theorem witness_OnlyWritersChangeMemory :
    (∃ t, exec (.load .always (.r 0) (.imm 5)) start = .next t) ∧
      (∃ t, exec (.syscall .always (.imm 1)) start = .next t) ∧
      ∀ c v, Instr.syscall .always (.imm 1) = .syscall c v → start.valZ v ≠ .ok 10 := by
  refine ⟨⟨_, rfl⟩, ⟨_, rfl⟩, fun c v h => ?_⟩
  cases h; decide
theorem witness_OutputIsWriteOnly : ∃ t, step (holding 0x1013) = .next t := ⟨_, rfl⟩
theorem witness_GhostRecordIsNeverRead : ∃ t, step (holding 0x14) = .next t := ⟨_, rfl⟩
/-- By a fault, and by a write to `$flag` (`load $flag 0x30`). -/
theorem witness_ErrorBitCauses :
    (∃ t, step (holding 0x14) = .next t ∧
      flagErr (t.readReg .flag) ≠ flagErr ((holding 0x14).readReg .flag)) ∧
    ∃ t, step (holding 0x3000C01) = .next t ∧
      flagErr (t.readReg .flag) ≠ flagErr ((holding 0x3000C01).readReg .flag) :=
  ⟨⟨_, rfl, by decide⟩, _, rfl, by decide⟩
/-- By a fault, by a write to `$flag` (T10), by `exit` and by `exit2`. -/
theorem witness_HaltCauses :
    (∃ t, step (holding 0x14) = .next t ∧ t.Halted) ∧
      (∃ t, step (holding 0x700C01) = .next t ∧ t.Halted) ∧
      (∃ t, step (holding 0xB013) = .next t ∧ t.Halted) ∧
      ∃ t, step (holding 0xC013) = .next t ∧ t.Halted :=
  ⟨⟨_, rfl, by unfold State.Halted; decide⟩, ⟨_, rfl, by unfold State.Halted; decide⟩,
    ⟨_, rfl, by unfold State.Halted; decide⟩, _, rfl, by unfold State.Halted; decide⟩
theorem witness_FlagBitsKept :
    (∃ t, exec (.push .always (.imm 5)) start = .next t) ∧ ¬ (Instr.push .always (.imm 5)).namesFlag := by
  refine ⟨⟨_, rfl⟩, fun h => ?_⟩
  rcases h with h | ⟨c, rs, h⟩ <;> cases h
theorem witness_FallThrough :
    (∃ t, exec (.load .always (.r 0) (.imm 5)) start = .next t) ∧
      ¬ (Instr.load .always (.r 0) (.imm 5)).namesIp := by
  refine ⟨⟨_, rfl⟩, fun h => ?_⟩
  rcases h with h | ⟨c, rs, h⟩ <;> cases h
/-- A target in memory and the first that is not. -/
theorem witness_LoadToIpJumps :
    start.Passes .always ∧ ¬ start.Halted ∧ start.valZ (.imm 0xFFF8) = .ok 0xFFF8 ∧
      start.valZ (.imm 0xFFF9) = .ok 0xFFF9 ∧ start.cfg.memSize < (0xFFF9 : Word).toNat + 8 :=
  ⟨rfl, running_start, by decide⟩
/-- A store three bytes below the fetched word, and one at its last byte, each seen by the fetch of the state
after it; the last four bytes of memory. -/
theorem witness_StoreIsSeenByFetch :
    start.Passes .always ∧ start.MemOk ∧ start.loc (.mem 0xFFD) = .mem 0xFFD ∧
      start.loc (.mem 0x1007) = .mem 0x1007 ∧ (0x1007 : Word).toNat + 4 ≤ start.cfg.memSize ∧
      start.loc (.mem 0xFFFC) = .mem 0xFFFC ∧ (0xFFFC : Word).toNat + 4 ≤ start.cfg.memSize ∧
      (∃ t, exec (.store .always .sp (.mem 0xFFD)) start = .next t ∧ t.cfg = start.cfg ∧ t.FetchInRange) ∧
      ∃ t, exec (.store .always .sp (.mem 0x1007)) start = .next t ∧ t.FetchInRange :=
  ⟨rfl, memOk_start, by decide, by decide, by decide, by decide, by decide,
    ⟨_, rfl, rfl, by unfold State.FetchInRange; decide⟩, _, rfl, by unfold State.FetchInRange; decide⟩
theorem witness_LoadwLoadsConstant : Reg.sp ≠ .ip ∧ Reg.sp ≠ .zero ∧ Reg.sp ≠ .flag := by decide
/-- The last eight bytes of memory. -/
theorem witness_PushlThenPopl :
    let s := start.writeReg .sp 0xFFF8
    s.MemOk ∧ s.cfg.Sound ∧ (s.readReg .sp).toNat + 8 ≤ s.cfg.memSize ∧ Reg.r 4 ≠ .ip ∧ Reg.r 4 ≠ .zero ∧
      Reg.r 4 ≠ .flag ∧ Reg.r 4 ≠ .sp := ⟨memOk_writeReg _ _, by decide⟩
/-- The largest offset that fits its field, from `n` = `2^21 - 1` and `i` = 0, and from the last argument of a
larger `n`; an argument at address 0 and one below it. -/
theorem witness_LdargLoadsArgument :
    start.Passes .always ∧ 0 < 2 ^ 21 - 1 ∧ 1 + (2 ^ 21 - 1) - 0 ≤ 2 ^ 21 ∧ 2 ^ 22 - 1 < 2 ^ 22 ∧
      1 + 2 ^ 22 - (2 ^ 22 - 1) ≤ 2 ^ 21 ∧ 0 < 2 ∧ 1 + 2 - 0 ≤ 2 ^ 21 ∧
      ((0 : Word).toNat : Int) = (((start.writeReg .fp 12).readReg .fp).toNat - 4 * (1 + 2 - 0)) % 2 ^ 64 ∧
      (0 : Word).toNat + 4 ≤ start.cfg.memSize ∧
      ((0xFFFFFFFFFFFFFFFC : Word).toNat : Int) =
        (((start.writeReg .fp 8).readReg .fp).toNat - 4 * (1 + 2 - 0)) % 2 ^ 64 ∧
      start.cfg.memSize < (0xFFFFFFFFFFFFFFFC : Word).toNat + 4 := ⟨rfl, by decide⟩

end Sys2Proof.Tests
end

/-! PROOFS. The statements about the state (`10_state.md`): the step and its fetch, the halted machine,
`$zero`, what happens to `$flag` and to `$ip`, and the output that no instruction reads. -/

namespace Sys2Proof.Machine

/-! ## Accesses to memory, continued -/

/-- A read out of range is the fault of its address (rules R42, R43). -/
theorem memRead_error (s : State) (a : Word) (n : Nat) (h : ¬ a.toNat + n ≤ s.cfg.memSize) :
    s.memRead a n = .error (.memRange a.toNat) := by
  simp [State.memRead, State.inRange, h]

/-- A write to memory changes no register. -/
theorem memWrite_readReg (s t : State) (a : Word) (n : Nat) {w : Nat} (v : BitVec w) (q : Reg)
    (h : s.memWrite a n v = .ok t) : t.readReg q = s.readReg q := by
  obtain ⟨-, rfl⟩ := (memWrite_ok ..).mp h
  exact readReg_with_mem ..

/-- Storing bytes changes no register. -/
theorem storeBytes_readReg (s t : State) (a : Word) (bs : List Byte) (q : Reg)
    (h : s.storeBytes a bs = .ok t) : t.readReg q = s.readReg q := by
  obtain ⟨-, rfl⟩ := (storeBytes_ok ..).mp h
  exact readReg_with_mem ..

/-! ## The step, from its fetch -/

/-- The Processor runs exactly when it is not halted (rule R16). -/
theorem running_iff (s : State) : s.running = true ↔ ¬ s.Halted := by
  simp [State.running, State.Halted]

/-- A step of a halted machine (rule R302). -/
theorem step_of_halted (s : State) (h : s.Halted) : step s = .fault .halted := by
  rw [step, if_neg fun hr => (running_iff s).mp hr h]

/-- A step whose fetch faults (rule R27). -/
theorem step_of_fetch_error (s : State) (r : FaultReason) (hrun : ¬ s.Halted)
    (hf : s.fetchWord = .error r) : step s = .next (s.raise r) := by
  rw [step, if_pos ((running_iff s).mpr hrun)]
  simp only [hf, conclude_error]

/-- A step whose fetched bytes are an instruction (rule R27). -/
theorem step_of_decode (s : State) (i : Instr) (hrun : ¬ s.Halted) (hin : s.FetchInRange)
    (hi : decodeBytes s.bytesAtIp = .ok i) : step s = exec i s.advance := by
  rw [decodeBytes, bytesWord_bytesAtIp] at hi
  rw [step, if_pos ((running_iff s).mpr hrun), (fetchWord_ok s _).mpr ⟨hin, rfl⟩]
  simp only [hi]

/-- The advance moves `$ip` and nothing else (rules R27, R28). -/
theorem advance_onlyIpMoved (s : State) : OnlyIpMoved s s.advance where
  regs r hr := advance_readReg_of_ne s r (by simpa using hr)
  mem a := advance_byteAt s a
  host := ⟨rfl, rfl, rfl⟩
  ghost := rfl

/-- Settles O5: the word fetched is the one the eight bytes at `$ip` make. -/
theorem stepRunsDecodedInstruction : Obligations.StepRunsDecodedInstruction :=
  fun s i hrun hin hi => ⟨step_of_decode s i hrun hin hi, advance_ip s, advance_onlyIpMoved s⟩

/-- Settles O7: the fetch is a read of eight bytes, whose fault is taken before `$ip` moves. -/
theorem fetchOutOfRangeFaults : Obligations.FetchOutOfRangeFaults := fun s hrun hout =>
  ⟨s.raise _, step_of_fetch_error s _ hrun (memRead_error s _ 8 hout), raise_took s _⟩

/-! ## The halted machine -/

/-- The end of an instruction is never a stop. -/
theorem conclude_ne_fault (s : State) (x : Except FaultReason State) (f : Fault) :
    s.conclude x ≠ .fault f := by
  cases x <;> exact nofun

/-- A conditional instruction stops only where its body does. -/
theorem conditional_fault (s : State) (c : Cond) (body : Result) (f : Fault)
    (h : s.conditional c body = .fault f) : body = .fault f := by
  unfold State.conditional at h
  split at h
  · exact h
  · cases h

/-- A service stops only for want of an answer (rule R251). -/
theorem serve_fault (s : State) (sv : Service) (f : Fault) (h : s.serve sv = .fault f) :
    f = .noInput := by
  cases sv with
  | printInt | printFloat | printDouble | printChar | exit | exit2 => cases h
  | printString => exact absurd h (conclude_ne_fault s _ f)
  | readInt | readFloat | readDouble | readChar =>
    simp only [State.serve, serviceReadInt, serviceReadFloat, serviceReadDouble, serviceReadChar] at h
    split at h <;> cases h
    rfl
  | readString =>
    simp only [State.serve, serviceReadString] at h
    split at h
    · split at h
      · exact absurd h (conclude_ne_fault s _ f)
      · cases h; rfl
    · cases h; rfl

/-- An instruction stops only for want of an answer: it never answers `halted`. -/
theorem exec_fault (i : Instr) (s : State) (f : Fault) (h : exec i s = .fault f) : f = .noInput := by
  cases i with
  | nop => cases h
  | not c rd rs => cases conditional_fault s c _ f h
  | syscall c v =>
    have hb := conditional_fault s c _ f h
    split at hb
    · cases hb
    · split at hb
      · exact serve_fault s _ f hb
      · cases hb
  | load c | loadu c | store c | add c | sub c | mul c | div c | idiv c | cmp c | and c | or c | xor c
  | shr c | shl c | push c | call c | ret c =>
    exact absurd (conditional_fault s c _ f h) (conclude_ne_fault s _ f)

/-- Settles O8: a running machine's step ends in a fault taken, or in what an instruction answers. -/
theorem haltedTakesNoStep : Obligations.HaltedTakesNoStep := by
  refine fun s => ⟨fun h => ?_, step_of_halted s⟩
  by_contra hrun
  rw [step, if_pos ((running_iff s).mpr hrun)] at h
  split at h
  · cases h
  · split at h
    · cases h
    · cases exec_fault _ _ _ h

/-! ## The zero register -/

/-- Settles O47, from the effects of an instruction whose destination is `$zero`. -/
theorem zeroRegisterDiscardsWrites : Obligations.ZeroRegisterDiscardsWrites := by
  refine ⟨readReg_zero, writeReg_zero, fun i s t hz h => ?_, fun s c rs => ?_⟩
  · cases exec_effect i s t h with
    | skip => exact ⟨fun _ _ => rfl, fun _ => rfl⟩
    | fault _ r => exact ⟨(raise_took s r).regs, (raise_took s r).mem⟩
    | wrote _ rd x hrd =>
      obtain rfl : rd = .zero := Option.some.inj (hrd.symm.trans hz)
      have wrote := writeDest_wrote s .zero x
      refine ⟨fun q hq => ?_, wrote.mem⟩
      by_cases hq0 : q = .zero
      · rw [hq0, readReg_zero, readReg_zero]
      · exact wrote.regs q (by simpa [hq0] using hq)
    | _ => cases hz
  · change s.conditional c (.next s) = .next s
    exact ite_self _

/-! ## What an instruction does to `$flag` -/

/-- Everything an instruction can do to `$flag`, by its cause: nothing, a fault (rule R301), an ordinary
write (rule R24), the zero-flag update of a destination (rule R18), a comparison (rule R150), the
services `exit` and `exit2` (rules R262, R263). -/
inductive FlagEffect (s : State) : Instr → State → Prop where
  | kept (i : Instr) (t : State) (h : t.readReg .flag = s.readReg .flag) : FlagEffect s i t
  | fault (i : Instr) (r : FaultReason) : FlagEffect s i (s.raise r)
  | named (i : Instr) (t : State) (h : i.namesFlag) : FlagEffect s i t
  | zero (i : Instr) (t : State) (rd : Reg) (z : Bool) (hrd : i.zDest = some rd)
      (h : t.readReg .flag = withZ (s.readReg .flag) z) : FlagEffect s i t
  | compared (c : Cond) (dt : DType) (rs : Reg) (v : Value) (t : State) (code : BitVec 3) (z : Bool)
      (h : t.readReg .flag = withZ (withCmp (s.readReg .flag) code) z) : FlagEffect s (.cmp c dt rs v) t
  | exited (c : Cond) (v : Value) (t : State) (hv : s.valZ v = .ok 11 ∨ s.valZ v = .ok 12)
      (h : t.readReg .flag = withRun (s.readReg .flag) false) : FlagEffect s (.syscall c v) t

/-- What an instruction does to `$flag` is one of these. -/
theorem exec_flagEffect (i : Instr) (s t : State) (h : exec i s = .next t) : FlagEffect s i t := by
  cases exec_effect i s t h with
  | skip => exact .kept _ _ rfl
  | fault _ r => exact .fault _ r
  | wrote _ rd x hrd =>
    by_cases hf : rd = .flag
    · exact .named _ _ (.inl (hf ▸ hrd))
    · exact .zero _ _ rd _ hrd (by rw [writeDest_readReg, if_pos rfl, if_neg hf])
  | storeReg c rs r =>
    by_cases hf : r = .flag
    · exact .named _ _ (.inr ⟨c, rs, by rw [hf]⟩)
    · exact .kept _ _ (readReg_writeReg_of_ne s r .flag _ (Ne.symm hf))
  | storeMem c rs a addr _ hl hw => exact .kept _ _ (memWrite_readReg _ _ _ _ _ _ hw)
  | compared c dt rs v code z => exact .compared c dt rs v _ code z (readReg_writeReg_self s .flag _ nofun)
  | pushed c v b u hv hw =>
    exact .kept _ _ ((readReg_writeReg_of_ne u .sp .flag _ nofun).trans (memWrite_readReg _ _ _ _ _ _ hw))
  | called c v x hv hr => exact .kept _ _ (by simp [readReg_writeReg])
  | returned c n hn hr => exact .kept _ _ (by simp [readReg_writeReg, reloadPreserved_readReg])
  | printed c v e => exact .kept _ _ (emit_readReg ..)
  | answered c v x rest => exact .kept _ _ (by simp [readReg_writeReg])
  | readText c v rest bs _ hv hw =>
    exact .kept _ _ ((storeBytes_readReg _ _ _ _ _ hw).trans (readReg_with_input ..))
  | exited c v hv => exact .exited c v _ (.inl hv) (readReg_writeReg_self s .flag _ nofun)
  | exitedWith c v hv =>
    exact .exited c v _ (.inr hv) (by simp [State.halt, readReg_writeReg])

/-- Halting keeps `flag.cmp`. -/
@[simp] theorem flagCmp_withRun (w : Word) (b : Bool) : flagCmp (withRun w b) = flagCmp w := by
  ext i hi
  simp only [flagCmp, BitVec.getElem_extractLsb', withRun_bit]
  rw [if_neg (by omega)]

/-- Writing `ERR` keeps `flag.cmp`. -/
@[simp] theorem flagCmp_withErr (w : Word) (b : Bool) : flagCmp (withErr w b) = flagCmp w := by
  ext i hi
  simp only [flagCmp, BitVec.getElem_extractLsb', withErr_bit]
  rw [if_neg (by omega)]

/-- Settles O52: of the causes, only a fault and an ordinary write reach bit 5. -/
theorem errorBitCauses : Obligations.ErrorBitCauses := by
  intro s t h herr
  obtain ⟨-, ⟨r, -, rfl⟩ | ⟨e, -, -, rfl⟩ | ⟨i, -, hi, hx⟩⟩ := step_cases s t h
  · exact .inl ⟨r, .inl (raise_took s r)⟩
  · exact .inl ⟨_, .inr (raise_took s.advance _)⟩
  · have hflag : s.advance.readReg .flag = s.readReg .flag := advance_readReg_of_ne s .flag nofun
    cases exec_flagEffect i s.advance t hx with
    | kept _ _ hk => exact absurd (by rw [hk, hflag]) herr
    | fault _ r => exact .inl ⟨r, .inr (raise_took s.advance r)⟩
    | named _ _ hn => exact .inr ⟨i, hi, hn⟩
    | zero _ _ rd z _ hz => exact absurd (by rw [hz, flagErr_withZ, hflag]) herr
    | compared _ _ _ _ _ code z hc =>
      exact absurd (by rw [hc, flagErr_withZ, flagErr_withCmp, hflag]) herr
    | exited _ _ _ _ hr => exact absurd (by rw [hr, flagErr_withRun, hflag]) herr

/-- Settles O54: each cause keeps the bits it does not name. -/
theorem flagBitsKept : Obligations.FlagBitsKept := by
  intro i s t h hn
  cases exec_flagEffect i s t h with
  | kept _ _ hk => simp [hk]
  | fault _ r =>
    refine ⟨fun _ => by simp, fun _ _ => by simp, fun k hk => ?_⟩
    exact (raise_took s r).flags k (by omega) (by omega)
  | named _ _ hf => exact absurd hf hn
  | zero _ _ rd z hrd hz =>
    refine ⟨fun _ => by simp [hz], fun _ hnone => ?_, fun k hk => ?_⟩
    · rw [hrd] at hnone; cases hnone
    · rw [hz, withZ_bit, if_neg (by omega)]
  | compared c dt rs v _ code z hc =>
    refine ⟨fun hne => absurd rfl (hne c dt rs v), fun hne => absurd rfl (hne c dt rs v), fun k hk => ?_⟩
    rw [hc, withZ_bit, if_neg (by omega), withCmp_bit, if_neg (by omega)]
  | exited _ _ _ _ hr =>
    refine ⟨fun _ => by simp [hr], fun _ _ => by simp [hr], fun k hk => ?_⟩
    rw [hr, withRun_bit, if_neg (by omega)]

/-! ## What an instruction does to `$ip` -/

/-- Settles O55: only a destination or a place that is `$ip`, `call` and `ret` write it. -/
theorem fallThrough : Obligations.FallThrough := by
  intro i s t h hip hcall hret
  cases exec_effect i s t h with
  | skip => rfl
  | fault _ r => exact raise_readReg_of_ne s .ip r nofun
  | wrote _ rd x hrd =>
    have hne : rd ≠ .ip := fun he => hip (.inl (he ▸ hrd))
    simp [writeDest_readReg, hne.symm]
  | storeReg c rs r =>
    exact readReg_writeReg_of_ne s r .ip _ fun he => hip (.inr ⟨c, rs, by rw [he]⟩)
  | storeMem c rs a addr _ hl hw => exact memWrite_readReg _ _ _ _ _ _ hw
  | compared c dt rs v code z => exact readReg_writeReg_of_ne s .flag .ip _ nofun
  | pushed c v b u hv hw =>
    exact (readReg_writeReg_of_ne u .sp .ip _ nofun).trans (memWrite_readReg _ _ _ _ _ _ hw)
  | called c v => exact absurd rfl (hcall c v)
  | returned c => exact absurd rfl (hret c)
  | printed c v e => exact emit_readReg ..
  | answered c v x rest => simp [readReg_writeReg]
  | readText c v rest bs _ hv hw =>
    exact (storeBytes_readReg _ _ _ _ _ hw).trans (readReg_with_input ..)
  | exited c v => simp [State.halt, readReg_writeReg]
  | exitedWith c v => simp [State.halt, readReg_writeReg]

/-! ## The past: what was printed, and the last fault before

Two fields are read by no instruction: the output (rule R31) and the ghost record (rule R300). Putting a
past before them therefore commutes with everything an instruction does. -/

/-- The state with output `o` printed before its own, and `g` the last fault unless it has one. -/
def State.withPast (s : State) (o : List OutputEvent) (g : Option FaultReason) : State :=
  { s with output := o ++ s.output, lastFault := s.lastFault.or g }

/-- The same past before the next state, if there is one. -/
def Result.withPast (x : Result) (o : List OutputEvent) (g : Option FaultReason) : Result :=
  match x with
  | .next t => .next (t.withPast o g)
  | .fault f => .fault f
  | .refused r => .refused r

section Past

variable (s : State) (o : List OutputEvent) (g : Option FaultReason)

@[simp] theorem withPast_readReg (q : Reg) : (s.withPast o g).readReg q = s.readReg q := by
  cases q <;> rfl
@[simp] theorem withPast_cfg : (s.withPast o g).cfg = s.cfg := rfl
@[simp] theorem withPast_mem : (s.withPast o g).mem = s.mem := rfl
@[simp] theorem withPast_input : (s.withPast o g).input = s.input := rfl
@[simp] theorem withPast_output : (s.withPast o g).output = o ++ s.output := rfl

/-! What an instruction reads does not see the past. -/

@[simp] theorem withPast_inRange (a : Word) (n : Nat) :
    (s.withPast o g).inRange a n = s.inRange a n := rfl
@[simp] theorem withPast_checkRange (a : Word) (n : Nat) :
    (s.withPast o g).checkRange a n = s.checkRange a n := rfl
@[simp] theorem withPast_memRead (a : Word) (n : Nat) :
    (s.withPast o g).memRead a n = s.memRead a n := rfl
@[simp] theorem withPast_fetchWord : (s.withPast o g).fetchWord = s.fetchWord := rfl
@[simp] theorem withPast_running : (s.withPast o g).running = s.running := rfl
@[simp] theorem withPast_stringAt (a : Word) : (s.withPast o g).stringAt a = s.stringAt a := rfl
@[simp] theorem withPast_frame : (s.withPast o g).frame = s.frame := by simp [State.frame]
@[simp] theorem withPast_frameWord (f : Word) (off : Nat) :
    (s.withPast o g).frameWord f off = s.frameWord f off := rfl
@[simp] theorem withPast_opRead (v : Value) : (s.withPast o g).opRead v = s.opRead v := by
  cases v <;> rfl
@[simp] theorem withPast_valZ (v : Value) : (s.withPast o g).valZ v = s.valZ v := by
  simp [State.valZ]
@[simp] theorem withPast_valT (v : Value) (dt : DType) : (s.withPast o g).valT v dt = s.valT v dt := by
  simp [State.valT]
@[simp] theorem withPast_regT (r : Reg) (dt : DType) : (s.withPast o g).regT r dt = s.regT r dt := by
  simp [State.regT]
@[simp] theorem withPast_loc (a : Addr) : (s.withPast o g).loc a = s.loc a := by
  cases a <;> simp [State.loc, State.indirect]

/-! What an instruction writes keeps the past before it. -/

@[simp] theorem withPast_writeReg (r : Reg) (v : Word) :
    (s.withPast o g).writeReg r v = (s.writeReg r v).withPast o g := by cases r <;> rfl
@[simp] theorem withPast_writeDest (rd : Reg) (v : Word) :
    (s.withPast o g).writeDest rd v = (s.writeDest rd v).withPast o g := by
  simp [State.writeDest, State.updateZ]
theorem withPast_with_mem (m : Memory) :
    { s.withPast o g with mem := m } = ({ s with mem := m } : State).withPast o g := rfl
theorem withPast_memWrite (a : Word) (n : Nat) {w : Nat} (v : BitVec w) :
    (s.withPast o g).memWrite a n v = (s.memWrite a n v).map (·.withPast o g) := by
  unfold State.memWrite
  rw [withPast_inRange]
  split <;> rfl
theorem withPast_storeBytes (a : Word) (bs : List Byte) :
    (s.withPast o g).storeBytes a bs = (s.storeBytes a bs).map (·.withPast o g) := by
  unfold State.storeBytes
  rw [withPast_inRange]
  split_ifs <;> rfl
@[simp] theorem withPast_raise (r : FaultReason) :
    (s.withPast o g).raise r = (s.raise r).withPast o g := rfl
@[simp] theorem withPast_emit (e : OutputEvent) :
    (s.withPast o g).emit e = (s.emit e).withPast o g := by
  simp [State.emit, State.withPast]
@[simp] theorem withPast_advance : (s.withPast o g).advance = s.advance.withPast o g := rfl
@[simp] theorem withPast_halt : (s.withPast o g).halt = s.halt.withPast o g := rfl
@[simp] theorem withPast_reloadPreserved (f : Word) :
    (s.withPast o g).reloadPreserved f = (s.reloadPreserved f).withPast o g := by
  have key : ∀ (ks : List (Fin 8)) (w : Fin 8 → Word) (u : State),
      ks.foldl (fun t k => t.writeReg (.s k) (w k)) (u.withPast o g) =
        (ks.foldl (fun t k => t.writeReg (.s k) (w k)) u).withPast o g := by
    intro ks w
    induction ks with
    | nil => exact fun _ => rfl
    | cons k ks ih => exact fun u => ih (u.writeReg (.s k) (w k))
  exact key _ _ s

/-- What is done with an answer, fault or not, keeps the past when every continuation does. -/
theorem withPast_bind {α : Type} (x : Except FaultReason α) (f f' : α → Except FaultReason State)
    (h : ∀ a, f' a = (f a).map (·.withPast o g)) : (x >>= f') = (x >>= f).map (·.withPast o g) := by
  cases x with
  | error r => rfl
  | ok a => exact h a

/-- The end of an instruction, its outcome with the past before it. -/
theorem withPast_conclude (x y : Except FaultReason State) (h : y = x.map (·.withPast o g)) :
    (s.withPast o g).conclude y = (s.conclude x).withPast o g := by
  subst h
  cases x <;> rfl

/-- The condition test does not see the past. -/
theorem withPast_conditional (c : Cond) (x y : Result) (h : y = x.withPast o g) :
    (s.withPast o g).conditional c y = (s.conditional c x).withPast o g := by
  subst h
  unfold State.conditional
  simp only [withPast_cfg, withPast_readReg]
  split <;> rfl

/-- A conditional instruction that concludes, its outcome with the past before it. -/
theorem withPast_conditional_conclude (c : Cond) (x y : Except FaultReason State)
    (h : y = x.map (·.withPast o g)) :
    (s.withPast o g).conditional c ((s.withPast o g).conclude y) =
      (s.conditional c (s.conclude x)).withPast o g :=
  withPast_conditional s o g c _ _ (withPast_conclude s o g x y h)

theorem withPast_arith (op : ArithOp) (dt : DType) (rd rs : Reg) (v : Value) :
    (s.withPast o g).arith op dt rd rs v = (s.arith op dt rd rs v).map (·.withPast o g) := by
  simp only [State.arith, withPast_valT, withPast_regT, withPast_writeDest]
  exact withPast_bind o g _ _ _ fun b => withPast_bind o g _ _ _ fun r => rfl

theorem withPast_logical (op : Word → Word → Word) (rd rs : Reg) (v : Value) :
    (s.withPast o g).logical op rd rs v = (s.logical op rd rs v).map (·.withPast o g) := by
  simp only [State.logical, withPast_valZ, withPast_readReg, withPast_writeDest]
  exact withPast_bind o g _ _ _ fun b => rfl

/-- A service does not see the past (rule R250). -/
theorem withPast_serve (sv : Service) :
    (s.withPast o g).serve sv = (s.serve sv).withPast o g := by
  cases sv with
  | printInt | printFloat | printDouble | printChar =>
    simp [State.serve, servicePrintInt, servicePrintFloat, servicePrintDouble, servicePrintChar,
      State.arg1, Result.withPast]
  | exit | exit2 => simp [State.serve, serviceExit, serviceExit2, State.arg1, Result.withPast]
  | printString =>
    refine withPast_conclude s o g _ _ ?_
    simp only [State.arg1, withPast_readReg, withPast_stringAt, withPast_emit]
    exact withPast_bind o g _ _ _ fun bs => rfl
  | readInt | readFloat | readDouble | readChar =>
    simp only [State.serve, serviceReadInt, serviceReadFloat, serviceReadDouble, serviceReadChar,
      withPast_input]
    split <;> rfl
  | readString =>
    simp only [State.serve, serviceReadString, withPast_input, withPast_cfg, State.arg1, State.arg2,
      withPast_readReg]
    split
    · rename_i bs rest hs
      split
      · exact withPast_conclude s o g _ _ (withPast_storeBytes { s with input := rest } o g _ _)
      · rfl
    · rfl

/-- An instruction does not see the past, and keeps it before what it does (rules R31, R300). -/
theorem withPast_exec (i : Instr) : exec i (s.withPast o g) = Result.withPast (exec i s) o g := by
  cases i with
  | nop => rfl
  | load c rd v | loadu c rd v =>
    refine withPast_conditional_conclude s o g c _ _ ?_
    simp only [withPast_valZ, withPast_readReg, withPast_writeDest]
    exact withPast_bind o g _ _ _ fun b => rfl
  | store c rs a =>
    refine withPast_conditional_conclude s o g c _ _ ?_
    simp only [withPast_loc, withPast_readReg, withPast_writeReg, withPast_memWrite]
    cases s.loc a <;> rfl
  | add c dt rd rs v | sub c dt rd rs v | mul c dt rd rs v | div c dt rd rs v | idiv c dt rd rs v =>
    exact withPast_conditional_conclude s o g c _ _ (withPast_arith s o g _ dt rd rs v)
  | cmp c dt rs v =>
    refine withPast_conditional_conclude s o g c _ _ ?_
    simp only [withPast_valT, withPast_regT, withPast_readReg, withPast_writeReg]
    exact withPast_bind o g _ _ _ fun b => rfl
  | not c rd rs =>
    refine withPast_conditional s o g c _ _ ?_
    simp only [withPast_readReg, withPast_writeDest]
    rfl
  | and c rd rs v | or c rd rs v | xor c rd rs v | shr c rd rs v | shl c rd rs v =>
    exact withPast_conditional_conclude s o g c _ _ (withPast_logical s o g _ rd rs v)
  | push c v =>
    refine withPast_conditional_conclude s o g c _ _ ?_
    simp only [withPast_valZ, withPast_readReg, withPast_memWrite]
    refine withPast_bind o g _ _ _ fun b => ?_
    cases s.memWrite (s.readReg .sp) 4 b with
    | error r => rfl
    | ok u => exact congrArg Except.ok (withPast_writeReg u o g .sp _)
  | call c v =>
    refine withPast_conditional_conclude s o g c _ _ ?_
    simp only [withPast_valZ, withPast_readReg, withPast_mem, withPast_frame, withPast_checkRange,
      withPast_with_mem, withPast_writeReg]
    exact withPast_bind o g _ _ _ fun x => withPast_bind o g _ _ _ fun _ => rfl
  | ret c =>
    refine withPast_conditional_conclude s o g c _ _ ?_
    simp only [withPast_readReg, withPast_memRead, withPast_checkRange, withPast_frameWord,
      withPast_reloadPreserved, withPast_writeReg]
    exact withPast_bind o g _ _ _ fun n => withPast_bind o g _ _ _ fun _ => rfl
  | syscall c v =>
    refine withPast_conditional s o g c _ _ ?_
    rw [withPast_valZ]
    cases s.valZ v with
    | error r => rfl
    | ok k =>
      dsimp only
      cases serviceOf k with
      | none => rfl
      | some sv => exact withPast_serve s o g sv

/-- A step does not see the past, and keeps it before what it does (rules R31, R300). -/
theorem withPast_step : step (s.withPast o g) = Result.withPast (step s) o g := by
  unfold step
  rw [withPast_running, withPast_fetchWord, withPast_advance]
  split
  · cases s.fetchWord with
    | error r => rfl
    | ok w =>
      dsimp only
      cases decode w with
      | error e => rfl
      | ok i => exact withPast_exec s.advance o g i
  · rfl

end Past

/-- An instruction appends at most one event to the output (rule R251). -/
theorem exec_output (i : Instr) (s t : State) (h : exec i s = .next t) :
    ∃ es : List OutputEvent, es.length ≤ 1 ∧ t.output = s.output ++ es := by
  cases exec_effect i s t h with
  | printed c v e => exact ⟨[e], le_rfl, emit_output s e⟩
  | storeMem c rs a addr _ hl hw =>
    obtain ⟨-, rfl⟩ := (memWrite_ok ..).mp hw
    exact ⟨[], by simp⟩
  | pushed c v b u hv hw =>
    obtain ⟨-, rfl⟩ := (memWrite_ok ..).mp hw
    exact ⟨[], by simp⟩
  | returned c n hn hr =>
    obtain ⟨-, hout, -⟩ := reloadPreserved_rest s (s.readReg .fp)
    exact ⟨[], by simp [hout]⟩
  | readText c v rest bs _ hv hw =>
    obtain ⟨-, rfl⟩ := (storeBytes_ok ..).mp hw
    exact ⟨[], by simp⟩
  | _ => exact ⟨[], by simp⟩

/-- A step appends at most one event to the output (rules R31, R251). -/
theorem step_output (s t : State) (h : step s = .next t) :
    ∃ es : List OutputEvent, es.length ≤ 1 ∧ t.output = s.output ++ es := by
  obtain ⟨-, ⟨r, -, rfl⟩ | ⟨e, -, -, rfl⟩ | ⟨i, -, -, hx⟩⟩ := step_cases s t h
  · exact ⟨[], by simp⟩
  · exact ⟨[], by simp⟩
  · exact exec_output i s.advance t hx

/-- Settles O50: a state is one that has printed nothing, with its output put before it as its past. -/
theorem outputIsWriteOnly : Obligations.OutputIsWriteOnly := by
  intro s t o h
  have past : ∀ o', { s with output := o' } = ({ s with output := [] } : State).withPast o' none := by
    simp [State.withPast]
  have hs := withPast_step { s with output := [] } s.output none
  rw [← past s.output, show ({ s with output := s.output } : State) = s from rfl, h] at hs
  cases hu : step { s with output := [] } with
  | fault f => rw [hu] at hs; cases hs
  | refused r => rw [hu] at hs; cases hs
  | next u =>
    rw [hu] at hs
    obtain rfl : t = u.withPast s.output none := Host.Outcome.next.inj hs
    obtain ⟨es, hlen, hes⟩ := step_output _ u hu
    obtain rfl : u.output = es := hes
    refine ⟨u.output, hlen, rfl, ?_⟩
    rw [past o, withPast_step, hu]
    rfl

end Sys2Proof.Machine

/-! PROOFS. The statements about memory (`20_memory.md`): what a read and a write of any width do, their
agreement across widths, which instructions write memory, and the invariant of its canonical form. -/

namespace Sys2Proof.Machine

/-! ## The bytes of a value -/

/-- A field of a field. -/
theorem extract_extract {w : Nat} (x : BitVec w) (lo len lo' len' : Nat) (h : lo' + len' ≤ len) :
    (x.extractLsb' lo len).extractLsb' lo' len' = x.extractLsb' (lo + lo') len' := by
  ext i hi
  simp [show lo' + i < len by omega, Nat.add_assoc]

/-- Two values of `n` bytes are equal when each byte is (rule R45). -/
theorem eq_of_bytes {n : Nat} (x y : BitVec (8 * n))
    (h : ∀ k, k < n → x.extractLsb' (8 * k) 8 = y.extractLsb' (8 * k) 8) : x = y := by
  apply BitVec.eq_of_getLsbD_eq
  intro j hj
  have hbyte := congrArg (·.getLsbD (j % 8)) (h (j / 8) (by omega))
  simpa [Nat.mod_lt, Nat.div_add_mod] using hbyte

/-! ## One read, one write -/

/-- Byte `k` of a value that was read is the byte at `a + k` (rule R43). -/
theorem memRead_byte (s : State) (a : Word) (n : Nat) (b : BitVec (8 * n)) (h : s.memRead a n = .ok b)
    (k : Nat) (hk : k < n) : b.extractLsb' (8 * k) 8 = s.byteAt (a.toNat + k) := by
  obtain ⟨-, rfl⟩ := (memRead_ok ..).mp h
  exact memory_readBytes_byte s.mem n a.toNat k hk

/-- A read in range whose bytes are those of a value gives that value (rule R43). -/
theorem memRead_of_bytes (s : State) (a : Word) (n : Nat) (b : BitVec (8 * n))
    (hr : a.toNat + n ≤ s.cfg.memSize)
    (hb : ∀ k, k < n → s.byteAt (a.toNat + k) = b.extractLsb' (8 * k) 8) : s.memRead a n = .ok b := by
  refine (memRead_ok ..).mpr ⟨hr, eq_of_bytes _ _ fun k hk => ?_⟩
  rw [memory_readBytes_byte s.mem n a.toNat k hk]
  exact (hb k hk).symm

/-- A write out of range is the fault of its address (rules R42, R44). -/
theorem memWrite_error (s : State) (a : Word) (n : Nat) {w : Nat} (v : BitVec w)
    (h : ¬ a.toNat + n ≤ s.cfg.memSize) : s.memWrite a n v = .error (.memRange a.toNat) := by
  simp [State.memWrite, State.inRange, h]

/-- Every byte after a write: byte `b - a` of the value inside the range, the old one outside (rule R44). -/
theorem memWrite_byteAt (s t : State) (a : Word) (n : Nat) {w : Nat} (v : BitVec w)
    (hm : s.mem.wf = true) (h : s.memWrite a n v = .ok t) (b : Nat) :
    t.byteAt b =
      if a.toNat ≤ b ∧ b < a.toNat + n then v.extractLsb' (8 * (b - a.toNat)) 8 else s.byteAt b := by
  obtain ⟨-, rfl⟩ := (memWrite_ok ..).mp h
  rw [byteAt_with_mem, memory_read_writeList _ _ _ _ hm]
  by_cases hin : a.toNat ≤ b ∧ b < a.toNat + n
  · rw [if_pos hin, dif_pos ⟨hin.1, by rw [valueBytes_length]; omega⟩, valueBytes_getElem]
  · rw [if_neg hin, dif_neg (by rw [valueBytes_length]; omega)]
    rfl

/-- A write changes no byte outside its range (rule R44). -/
theorem memWrite_sameMemBut (s t : State) (a : Word) (n : Nat) {w : Nat} (v : BitVec w)
    (hm : s.mem.wf = true) (h : s.memWrite a n v = .ok t) : SameMemBut a.toNat n s t := fun b hb => by
  rw [memWrite_byteAt s t a n v hm h, if_neg (by omega)]

/-- A write keeps the invariant of memory. -/
theorem memWrite_memOk (s t : State) (a : Word) (n : Nat) {w : Nat} (v : BitVec w) (hm : s.MemOk)
    (h : s.memWrite a n v = .ok t) : t.MemOk := by
  obtain ⟨hr, rfl⟩ := (memWrite_ok ..).mp h
  exact memOk_writeList s _ _ hm (by rwa [valueBytes_length])

/-- Settles O11, for every number of bytes. -/
theorem memReadBytes : Obligations.MemReadBytes := fun s a n _ =>
  ⟨fun hr =>
    have hread := (memRead_ok s a n _).mpr ⟨hr, rfl⟩
    ⟨_, hread, memRead_byte s a n _ hread⟩,
  fun hr => memRead_error s a n (by omega)⟩

/-- Settles O12, for every number of bytes. -/
theorem memWriteBytes : Obligations.MemWriteBytes := by
  refine fun s a n v _ hm => ⟨fun hr => ?_, fun hr => memWrite_error s a n v (by omega)⟩
  have hwrite := (memWrite_ok s _ a n v).mpr ⟨hr, rfl⟩
  refine ⟨_, hwrite, fun k hk => ?_, memWrite_sameMemBut s _ a n v hm.1 hwrite,
    fun q _ => memWrite_readReg s _ a n v q hwrite, ⟨rfl, rfl, rfl⟩, rfl,
    memWrite_memOk s _ a n v hm hwrite⟩
  rw [memWrite_byteAt s _ a n v hm.1 hwrite, if_pos (by omega), Nat.add_sub_cancel_left]

/-! ## Accesses of different widths -/

/-- A read inside the range of a write gives the part of the value that starts at its offset (rule R45). -/
theorem memRead_part_of_memWrite (s t : State) (a : Word) (m : Nat) {w : Nat} (v : BitVec w)
    (hm : s.mem.wf = true) (hsize : s.cfg.memSize ≤ 2 ^ 64) (h : s.memWrite a m v = .ok t) (k n : Nat)
    (hn : 0 < n) (hkn : k + n ≤ m) :
    t.memRead (a + BitVec.ofNat 64 k) n = .ok (v.extractLsb' (8 * k) (8 * n)) := by
  obtain ⟨hr, ht⟩ := (memWrite_ok ..).mp h
  have hcfg : t.cfg = s.cfg := by rw [ht]
  have haddr : (a + BitVec.ofNat 64 k).toNat = a.toNat + k := by
    rw [BitVec.toNat_add, BitVec.toNat_ofNat]
    omega
  refine memRead_of_bytes t _ n _ (by rw [haddr, hcfg]; omega) fun j hj => ?_
  rw [haddr, memWrite_byteAt s t a m v hm h, if_pos (by omega), extract_extract _ _ _ _ _ (by omega),
    show 8 * (a.toNat + k + j - a.toNat) = 8 * k + 8 * j by omega]

/-- Settles O13: the reads are parts of the written value, at the offsets 0, 0, 4 and `k`. -/
theorem mixedWidthAccess : Obligations.MixedWidthAccess := by
  intro s t a v hm hsound hw
  have part := memRead_part_of_memWrite s t a 8 v hm.1 hsound.2 hw
  have whole := part 0 8 (by omega) le_rfl
  have low := part 0 4 (by omega) (by omega)
  rw [BitVec.add_zero] at whole low
  refine ⟨whole.trans (congrArg _ (extract_all v)), low, part 4 4 (by omega) le_rfl, fun k hk => ?_⟩
  exact part k 1 (by omega) (by omega)

/-! ## A store and the fetches after it -/

/-- A `store` to a memory place, its condition passed, is the write of four bytes (rule R102). -/
theorem exec_store_mem (s t : State) (c : Cond) (rs : Reg) (a : Addr) (addr : Word) (hp : s.Passes c)
    (hl : s.loc a = .mem addr) (hw : s.memWrite addr 4 (s.readReg rs) = .ok t) :
    exec (.store c rs a) s = .next t := by
  change s.conditional c (s.conclude _) = _
  rw [conditional_pass s c _ hp, hl]
  exact congrArg s.conclude hw

/-- Settles O57: a fetch is an ordinary read, so its bytes are memory's, and memory's are the stored ones
where these still stand. -/
theorem storeIsSeenByFetch : Obligations.StoreIsSeenByFetch := by
  intro s c rs a addr hp hm hl hr
  have hw := (memWrite_ok s _ addr 4 (s.readReg rs)).mpr ⟨hr, rfl⟩
  refine ⟨_, exec_store_mem s _ c rs a addr hp hl hw, memWrite_sameMemBut s _ addr 4 _ hm.1 hw,
    fun u _ hstand hin => ?_⟩
  have hfetch := (fetchWord_ok u _).mpr ⟨hin, rfl⟩
  refine ⟨_, hfetch, fun k hk => ?_⟩
  rw [memRead_byte u _ 8 _ hfetch k hk]
  split_ifs with hov
  · rw [hstand _ hov.1 hov.2, memWrite_byteAt s _ addr 4 _ hm.1 hw, if_pos hov]
  · rfl

/-! ## Which instructions write memory, and where -/

/-- The instructions that write memory: `store`, `push`, `call`, and `syscall` with the number of
`read_string` (rules R47, R50). -/
inductive WritesMemory (s : State) : Instr → Prop where
  | store (c : Cond) (rs : Reg) (a : Addr) : WritesMemory s (.store c rs a)
  | push (c : Cond) (v : Value) : WritesMemory s (.push c v)
  | call (c : Cond) (v : Value) : WritesMemory s (.call c v)
  | readString (c : Cond) (v : Value) (hv : s.valZ v = .ok 10) : WritesMemory s (.syscall c v)

/-- Bytes were written one after another, all of them inside memory (rule R42). -/
def WroteInside (s t : State) : Prop :=
  ∃ (a : Nat) (bs : List Byte), a + bs.length ≤ s.cfg.memSize ∧ t.mem = s.mem.writeList a bs

/-- A write that answers a state wrote inside memory. -/
theorem memWrite_wroteInside (s t : State) (a : Word) (n : Nat) {w : Nat} (v : BitVec w)
    (h : s.memWrite a n v = .ok t) : WroteInside s t := by
  obtain ⟨hr, rfl⟩ := (memWrite_ok ..).mp h
  exact ⟨a.toNat, valueBytes n v, by rwa [valueBytes_length], rfl⟩

/-- Storing the bytes of a string writes nothing, or writes inside memory. -/
theorem storeBytes_wroteInside (s t : State) (a : Word) (bs : List Byte)
    (h : s.storeBytes a bs = .ok t) : t.mem = s.mem ∨ WroteInside s t := by
  obtain ⟨rfl | hr, rfl⟩ := (storeBytes_ok ..).mp h
  · exact .inl rfl
  · exact .inr ⟨a.toNat, bs, hr, rfl⟩

/-- Pushing the frame of a `call` in range writes inside memory (rule R212). -/
theorem frame_wroteInside (s : State) (a : Nat) (hr : a + 80 ≤ s.cfg.memSize) :
    WroteInside s { s with mem := s.mem.writeWords a s.frame } := by
  refine ⟨a, s.frame.flatMap (valueBytes 8), ?_, ?_⟩
  · rw [flatMap_valueBytes_length, frame_length]
    exact hr
  · simp only [memory_writeWords_eq]

/-- A write inside memory keeps the invariant. -/
theorem memOk_of_wroteInside (s t : State) (hc : t.cfg = s.cfg) (h : WroteInside s t) (hm : s.MemOk) :
    t.MemOk := by
  obtain ⟨a, bs, hr, ht⟩ := h
  exact memOk_congr { s with mem := s.mem.writeList a bs } t ht hc (memOk_writeList s a bs hm hr)

/-- An instruction leaves the configuration as it is. -/
theorem exec_cfg (i : Instr) (s t : State) (h : exec i s = .next t) : t.cfg = s.cfg := by
  cases exec_effect i s t h with
  | storeMem c rs a addr _ hl hw => obtain ⟨-, rfl⟩ := (memWrite_ok ..).mp hw; rfl
  | pushed c v b u hv hw => obtain ⟨-, rfl⟩ := (memWrite_ok ..).mp hw; simp
  | returned c n hn hr =>
    obtain ⟨-, -, -, -, hcfg⟩ := reloadPreserved_rest s (s.readReg .fp)
    simpa using hcfg
  | readText c v rest bs _ hv hw => obtain ⟨-, rfl⟩ := (storeBytes_ok ..).mp hw; rfl
  | _ => simp

/-- What an instruction does to memory: nothing, or, if it is one of the writers, a write inside it. -/
theorem exec_memory (i : Instr) (s t : State) (h : exec i s = .next t) :
    t.mem = s.mem ∨ WritesMemory s i ∧ WroteInside s t := by
  cases exec_effect i s t h with
  | storeMem c rs a addr _ hl hw =>
    exact .inr ⟨.store c rs a, memWrite_wroteInside s t addr 4 _ hw⟩
  | pushed c v b u hv hw =>
    obtain ⟨a, bs, hr, hu⟩ := memWrite_wroteInside s u _ 4 b hw
    exact .inr ⟨.push c v, a, bs, hr, (writeReg_mem ..).trans hu⟩
  | called c v x hv hr =>
    obtain ⟨a, bs, hin, hmem⟩ := frame_wroteInside s _ hr
    exact .inr ⟨.call c v, a, bs, hin, by simpa using hmem⟩
  | returned c n hn hr =>
    obtain ⟨hmem, -⟩ := reloadPreserved_rest s (s.readReg .fp)
    exact .inl (by simpa using hmem)
  | readText c v rest bs _ hv hw =>
    exact (storeBytes_wroteInside _ t _ bs hw).imp_right fun hin => ⟨.readString c v hv, hin⟩
  | _ => exact .inl (by simp)

/-- Settles O49: an instruction that changed memory is one of the four writers. -/
theorem onlyWritersChangeMemory : Obligations.OnlyWritersChangeMemory := by
  intro i s t h hstore hpush hcall hread
  obtain hmem | ⟨hwriter, -⟩ := exec_memory i s t h
  · exact fun a => congrArg (·.read a) hmem
  · cases hwriter with
    | store c rs a => exact absurd rfl (hstore c rs a)
    | push c v => exact absurd rfl (hpush c v)
    | call c v => exact absurd rfl (hcall c v)
    | readString c v hv => exact absurd hv (hread c v rfl)

/-! ## The invariant of memory -/

/-- An instruction keeps the invariant of memory: what it writes, it writes inside. -/
theorem exec_memOk (i : Instr) (s t : State) (h : exec i s = .next t) (hm : s.MemOk) : t.MemOk := by
  have hcfg := exec_cfg i s t h
  obtain hmem | ⟨-, hin⟩ := exec_memory i s t h
  · exact memOk_congr s t hmem hcfg hm
  · exact memOk_of_wroteInside s t hcfg hin hm

/-- Settles O45: nothing is listed at reset. -/
theorem resetMemoryIsCanonical : Obligations.ResetMemoryIsCanonical :=
  fun _ => ⟨rfl, fun _ hc => absurd hc List.not_mem_nil⟩

/-- Settles O46: a fault and the advance of `$ip` leave memory alone, an instruction keeps the invariant. -/
theorem stepKeepsMemoryCanonical : Obligations.StepKeepsMemoryCanonical := by
  intro s t hm h
  have hadv : s.advance.MemOk := memOk_congr s _ (advance_mem s) (advance_cfg s) hm
  obtain ⟨-, ⟨r, -, rfl⟩ | ⟨e, -, -, rfl⟩ | ⟨i, -, -, hx⟩⟩ := step_cases s t h
  · exact memOk_congr s _ (raise_mem s r) (raise_cfg s r) hm
  · exact memOk_congr s.advance _ (raise_mem ..) (raise_cfg ..) hadv
  · exact exec_memOk i s.advance t hx hadv

end Sys2Proof.Machine

/-! PROOFS. The statements about the encoding (`30_encoding.md`): the decoder and the encoder undo each
other, the decoder rejects the listed words and no other, the condition test, the operands. -/

namespace Sys2Proof

/-! ## Fields of a word -/

/-- A field is a concatenation exactly when its high and its low part are the two halves. -/
theorem field_eq_append_iff {n m : Nat} (w : Word) (lo : Nat) (x : BitVec n) (y : BitVec m) :
    field w lo (n + m) = x ++ y ↔ field w (lo + m) n = x ∧ field w lo m = y := by
  have hsplit : field w lo (n + m) = field w (lo + m) n ++ field w lo m :=
    (BitVec.extractLsb'_append_extractLsb'_eq_extractLsb' rfl).symm
  rw [hsplit]
  refine ⟨fun h => ⟨?_, ?_⟩, fun ⟨hx, hy⟩ => by rw [hx, hy]⟩
  · simpa [extract_high, extract_all] using congrArg (·.extractLsb' m n) h
  · simpa [extract_low, extract_all] using congrArg (·.extractLsb' 0 m) h

/-- A word is given by its one field of 64 bits. -/
theorem eq_iff_field_whole (w x : Word) : w = x ↔ field w 0 64 = x := by
  rw [show field w 0 64 = w from extract_all w]

/-- A field as a number (`00_scope.md` section 6). -/
theorem field_toNat (w : Word) (lo len : Nat) :
    (field w lo len).toNat = w.toNat / 2 ^ lo % 2 ^ len := by
  rw [field, BitVec.extractLsb'_toNat, Nat.shiftRight_eq_div_pow]

/-! ## What each part of the decoder accepts -/

/-- A computation goes through exactly when its first part does and the rest does on its answer. -/
theorem bind_eq_ok_iff {ε α β : Type} (x : Except ε α) (f : α → Except ε β) (b : β) :
    x >>= f = .ok b ↔ ∃ a, x = .ok a ∧ f a = .ok b := by
  cases x <;> simp [bind, Except.bind]

/-- A computation that only answers. -/
theorem pure_eq_ok_iff {ε α : Type} (a b : α) : (pure a : Except ε α) = .ok b ↔ a = b := by
  simp [pure, Except.pure]

/-- The image of an answer is an answer of the first part. -/
theorem map_eq_ok_iff {ε α β : Type} (x : Except ε α) (f : α → β) (b : β) :
    x.map f = .ok b ↔ ∃ a, x = .ok a ∧ f a = b := by
  cases x <;> simp [Except.map]

/-- The top bits pass as must-be-zero bits exactly when they are zero (rule R87 case 3). -/
theorem checkZero_eq_ok_iff (w : Word) (lo len : Nat) (h : lo + len = 64) (u : Unit) :
    checkZero w lo = .ok u ↔ field w lo len = 0 := by
  have hlt : w.toNat / 2 ^ lo < 2 ^ len := by
    rw [Nat.div_lt_iff_lt_mul (Nat.two_pow_pos lo), ← Nat.pow_add, Nat.add_comm, h]
    exact w.isLt
  rw [checkZero, ← BitVec.toNat_inj, field_toNat, Nat.mod_eq_of_lt hlt]
  simp [Nat.div_eq_zero_iff]

/-- Rule R87 case 8 passes exactly when the type allows the operand. -/
theorem checkTyped_eq_ok_iff (dt : DType) (v : Value) (u : Unit) :
    checkTyped dt v = .ok u ↔ typedOperandOk dt v = true := by
  simp [checkTyped]

/-- A register field decodes exactly to the register it encodes (rules R23, R68). -/
theorem decodeReg_eq_ok_iff (b : BitVec 8) (r : Reg) : decodeReg b = .ok r ↔ b = encodeReg r :=
  ⟨fun h => (encodeReg_decodeReg b r h).symm, fun h => h ▸ decodeReg_encodeReg r⟩

/-- A data-type field decodes exactly to the type it encodes (rule R66). -/
theorem decodeType_eq_ok_iff (b : BitVec 3) (dt : DType) : decodeType b = .ok dt ↔ b = dt.code :=
  ⟨fun h => (code_decodeType b dt h).symm, fun h => h ▸ decodeType_code dt⟩

/-! ## Operands, mode by mode (rules R69, R85) -/

/-- The parts of an operand field: the data, which are an offset above a register number, and the mode
(rules R69, R85). -/
theorem exists_operand_parts (o : BitVec 34) :
    ∃ (n : BitVec 24) (b : BitVec 8) (mode : BitVec 2), o = n ++ b ++ mode :=
  ⟨(o.extractLsb' 2 32).extractLsb' 8 24, (o.extractLsb' 2 32).extractLsb' 0 8, o.extractLsb' 0 2, by
    rw [show _ ++ _ = o.extractLsb' 2 32 from append_extract 8 (by decide) _]
    exact (append_extract 2 (by decide) o).symm⟩

/-- The four modes (rule R69). -/
theorem mode_cases : ∀ mode : BitVec 2, mode = 0#2 ∨ mode = 1#2 ∨ mode = 2#2 ∨ mode = 3#2 := by decide

section Modes
variable (n : BitVec 24) (b : BitVec 8)

theorem decodeValue_imm : decodeValue (n ++ b ++ 0#2) = .ok (.imm (n ++ b)) := by
  simp only [decodeValue, extract_high, extract_low, extract_all, le_refl, Nat.sub_self]
  rfl

theorem decodeValue_mem : decodeValue (n ++ b ++ 1#2) = .ok (.mem (n ++ b)) := by
  simp only [decodeValue, extract_high, extract_low, extract_all, le_refl, Nat.sub_self]
  rfl

theorem decodeValue_reg : decodeValue (n ++ b ++ 2#2) =
    if n = 0 then (decodeReg b).map .reg else .error .registerData := by
  simp only [decodeValue, extract_high, extract_low, extract_all, le_refl, Nat.sub_self]
  rfl

theorem decodeValue_ind : decodeValue (n ++ b ++ 3#2) = (decodeReg b).map (.ind · n) := by
  simp only [decodeValue, extract_high, extract_low, extract_all, le_refl, Nat.sub_self]
  rfl

end Modes

/-- An operand field that decodes is the field of the operand (rules R69, R85). -/
theorem encodeValue_decodeValue (o : BitVec 34) (v : Value) (h : decodeValue o = .ok v) :
    encodeValue v = o := by
  obtain ⟨n, b, mode, rfl⟩ := exists_operand_parts o
  obtain rfl | rfl | rfl | rfl := mode_cases mode
  · cases (decodeValue_imm n b).symm.trans h
    rfl
  · cases (decodeValue_mem n b).symm.trans h
    rfl
  · replace h := (decodeValue_reg n b).symm.trans h
    split at h
    · obtain ⟨r, hr, rfl⟩ := (map_eq_ok_iff ..).mp h
      subst_vars
      rw [(decodeReg_eq_ok_iff b r).mp hr]
      rfl
    · cases h
  · replace h := (decodeValue_ind n b).symm.trans h
    obtain ⟨r, hr, rfl⟩ := (map_eq_ok_iff ..).mp h
    rw [(decodeReg_eq_ok_iff b r).mp hr]
    rfl

/-- An operand field decodes exactly to the operand it encodes (rules R69, R85). -/
theorem decodeValue_eq_ok_iff (o : BitVec 34) (v : Value) : decodeValue o = .ok v ↔ o = encodeValue v :=
  ⟨fun h => (encodeValue_decodeValue o v h).symm, fun h => h ▸ decodeValue_encodeValue v⟩

/-- An `<addr>` field decodes exactly to the address operand it encodes (rule R84). -/
theorem decodeAddr_eq_ok_iff (o : BitVec 34) (a : Addr) :
    decodeAddr o = .ok a ↔ o = encodeValue a.toValue := by
  rw [← decodeValue_eq_ok_iff, decodeAddr]
  split <;> cases a <;> simp_all [Addr.toValue]

/-! ## The words of each format

Each format's word by the opcode and the operands, and the one fact about the format that both round
trips use: the decoder of the format accepts exactly such words, and answers their operands. -/

section Formats
variable (w : Word) (i : Instr) (op : BitVec 6) (c : Cond) (dt : DType) (rd rs : Reg) (v : Value)

/-- The ten header bits from the opcode (rule R61). -/
def headerBits : BitVec 10 := c.cc.code ++ BitVec.ofBool c.test ++ op

/-- The header bits of a word are those of its opcode and its condition. -/
theorem header_eq_iff :
    field w 0 10 = headerBits (field w 0 6) c ↔ decodeCond w = c := by
  have hcc : field w 7 3 = c.cc.code ↔ CC.ofCode (field w 7 3) = c.cc :=
    ⟨fun h => h ▸ cc_ofCode_code c.cc, fun h => h ▸ (cc_code_ofCode _).symm⟩
  have htest : field w 6 1 = BitVec.ofBool c.test ↔ w.getLsbD 6 = c.test := by
    rw [show field w 6 1 = BitVec.ofBool (w.getLsbD 6) by ext i hi; simp [field, show i = 0 by omega]]
    cases w.getLsbD 6 <;> cases c.test <;> decide
  have hsplit : field w 0 (3 + 1 + 6) = c.cc.code ++ BitVec.ofBool c.test ++ field w 0 6 ↔
      field w 7 3 = c.cc.code ∧ field w 6 1 = BitVec.ofBool c.test := by
    simp only [field_eq_append_iff, and_true]
  refine hsplit.trans ?_
  rw [hcc, htest, decodeCond, Cond.mk.injEq, and_comm]

/-! The word of each format, high field first. -/

/-- Format `Z` (rule R74). -/
def wordZ : Word := 0#54 ++ headerBits op c
/-- Format `RV` (rule R75). -/
def wordRV : Word := 0#12 ++ encodeValue v ++ encodeReg rd ++ headerBits op c
/-- Format `TRRV` (rule R77). -/
def wordTRRV : Word :=
  0#1 ++ encodeValue v ++ encodeReg rs ++ encodeReg rd ++ dt.code ++ headerBits op c
/-- Format `RRV` (rule R78). -/
def wordRRV : Word := 0#4 ++ encodeValue v ++ encodeReg rs ++ encodeReg rd ++ headerBits op c
/-- Format `TRV` (rule R79). -/
def wordTRV : Word := 0#9 ++ encodeValue v ++ encodeReg rs ++ dt.code ++ headerBits op c
/-- Format `RR` (rule R80). -/
def wordRR : Word := 0#38 ++ encodeReg rs ++ encodeReg rd ++ headerBits op c
/-- Format `V` (rule R83). -/
def wordV : Word := 0#20 ++ encodeValue v ++ headerBits op c

variable {w i op c dt rd rs v}

/-! A word is one of a format exactly when its fields are. -/

theorem eq_wordZ_iff : w = wordZ op c ↔
    field w 10 54 = 0 ∧ field w 0 10 = headerBits op c :=
  (eq_iff_field_whole w _).trans <| show field w 0 (54 + 10) = 0#54 ++ headerBits op c ↔ _ by
    rw [field_eq_append_iff]
    rfl

theorem eq_wordRV_iff : w = wordRV op c rd v ↔
    field w 52 12 = 0 ∧ field w 18 34 = encodeValue v ∧
      field w 10 8 = encodeReg rd ∧ field w 0 10 = headerBits op c :=
  (eq_iff_field_whole w _).trans <| show field w 0 (12 + 34 + 8 + 10) =
      0#12 ++ encodeValue v ++ encodeReg rd ++ headerBits op c ↔ _ by
    simp only [field_eq_append_iff, and_assoc]
    rfl

theorem eq_wordTRRV_iff : w = wordTRRV op c dt rd rs v ↔
    field w 63 1 = 0 ∧ field w 29 34 = encodeValue v ∧ field w 21 8 = encodeReg rs ∧
      field w 13 8 = encodeReg rd ∧ field w 10 3 = dt.code ∧ field w 0 10 = headerBits op c :=
  (eq_iff_field_whole w _).trans <| show field w 0 (1 + 34 + 8 + 8 + 3 + 10) =
      0#1 ++ encodeValue v ++ encodeReg rs ++ encodeReg rd ++ dt.code ++ headerBits op c ↔ _ by
    simp only [field_eq_append_iff, and_assoc]
    rfl

theorem eq_wordRRV_iff : w = wordRRV op c rd rs v ↔
    field w 60 4 = 0 ∧ field w 26 34 = encodeValue v ∧ field w 18 8 = encodeReg rs ∧
      field w 10 8 = encodeReg rd ∧ field w 0 10 = headerBits op c :=
  (eq_iff_field_whole w _).trans <| show field w 0 (4 + 34 + 8 + 8 + 10) =
      0#4 ++ encodeValue v ++ encodeReg rs ++ encodeReg rd ++ headerBits op c ↔ _ by
    simp only [field_eq_append_iff, and_assoc]
    rfl

theorem eq_wordTRV_iff : w = wordTRV op c dt rs v ↔
    field w 55 9 = 0 ∧ field w 21 34 = encodeValue v ∧ field w 13 8 = encodeReg rs ∧
      field w 10 3 = dt.code ∧ field w 0 10 = headerBits op c :=
  (eq_iff_field_whole w _).trans <| show field w 0 (9 + 34 + 8 + 3 + 10) =
      0#9 ++ encodeValue v ++ encodeReg rs ++ dt.code ++ headerBits op c ↔ _ by
    simp only [field_eq_append_iff, and_assoc]
    rfl

theorem eq_wordRR_iff : w = wordRR op c rd rs ↔
    field w 26 38 = 0 ∧ field w 18 8 = encodeReg rs ∧
      field w 10 8 = encodeReg rd ∧ field w 0 10 = headerBits op c :=
  (eq_iff_field_whole w _).trans <| show field w 0 (38 + 8 + 8 + 10) =
      0#38 ++ encodeReg rs ++ encodeReg rd ++ headerBits op c ↔ _ by
    simp only [field_eq_append_iff, and_assoc]
    rfl

theorem eq_wordV_iff : w = wordV op c v ↔
    field w 44 20 = 0 ∧ field w 10 34 = encodeValue v ∧ field w 0 10 = headerBits op c :=
  (eq_iff_field_whole w _).trans <| show field w 0 (20 + 34 + 10) =
      0#20 ++ encodeValue v ++ headerBits op c ↔ _ by
    simp only [field_eq_append_iff, and_assoc]
    rfl

/-! The decoder of a format accepts exactly the words of the format, and answers their operands. -/

theorem decodeZ_eq_ok_iff {k : Cond → Instr} (hop : field w 0 6 = op) :
    decodeZ w k = .ok i ↔ ∃ c, k c = i ∧ w = wordZ op c := by
  subst hop
  simp only [decodeZ, bind_eq_ok_iff, checkZero_eq_ok_iff w 10 54 rfl, eq_wordZ_iff,
    header_eq_iff, pure_eq_ok_iff]
  constructor
  · rintro ⟨-, hz, hi⟩
    exact ⟨_, hi, hz, rfl⟩
  · rintro ⟨c, hi, hz, rfl⟩
    exact ⟨(), hz, hi⟩

theorem decodeRV_eq_ok_iff {k : Cond → Reg → Value → Instr} (hop : field w 0 6 = op) :
    decodeRV w k = .ok i ↔ ∃ c rd v, k c rd v = i ∧ w = wordRV op c rd v := by
  subst hop
  simp only [decodeRV, bind_eq_ok_iff, checkZero_eq_ok_iff w 52 12 rfl, decodeReg_eq_ok_iff,
    decodeValue_eq_ok_iff, eq_wordRV_iff, header_eq_iff, pure_eq_ok_iff]
  constructor
  · rintro ⟨-, hz, rd, hrd, v, hv, hi⟩
    exact ⟨_, rd, v, hi, hz, hv, hrd, rfl⟩
  · rintro ⟨c, rd, v, hi, hz, hv, hrd, rfl⟩
    exact ⟨(), hz, rd, hrd, v, hv, hi⟩

theorem decodeTRRV_eq_ok_iff {k : Cond → DType → Reg → Reg → Value → Instr} (hop : field w 0 6 = op) :
    decodeTRRV w k = .ok i ↔ ∃ c dt rd rs v,
      typedOperandOk dt v = true ∧ k c dt rd rs v = i ∧ w = wordTRRV op c dt rd rs v := by
  subst hop
  simp only [decodeTRRV, bind_eq_ok_iff, checkZero_eq_ok_iff w 63 1 rfl, decodeType_eq_ok_iff,
    decodeReg_eq_ok_iff, decodeValue_eq_ok_iff, checkTyped_eq_ok_iff,
    eq_wordTRRV_iff, header_eq_iff, pure_eq_ok_iff]
  constructor
  · rintro ⟨-, hz, dt, hdt, rd, hrd, rs, hrs, v, hv, -, hok, hi⟩
    exact ⟨_, dt, rd, rs, v, hok, hi, hz, hv, hrs, hrd, hdt, rfl⟩
  · rintro ⟨c, dt, rd, rs, v, hok, hi, hz, hv, hrs, hrd, hdt, rfl⟩
    exact ⟨(), hz, dt, hdt, rd, hrd, rs, hrs, v, hv, (), hok, hi⟩

theorem decodeRRV_eq_ok_iff {k : Cond → Reg → Reg → Value → Instr} (hop : field w 0 6 = op) :
    decodeRRV w k = .ok i ↔ ∃ c rd rs v, k c rd rs v = i ∧ w = wordRRV op c rd rs v := by
  subst hop
  simp only [decodeRRV, bind_eq_ok_iff, checkZero_eq_ok_iff w 60 4 rfl, decodeReg_eq_ok_iff,
    decodeValue_eq_ok_iff, eq_wordRRV_iff, header_eq_iff, pure_eq_ok_iff]
  constructor
  · rintro ⟨-, hz, rd, hrd, rs, hrs, v, hv, hi⟩
    exact ⟨_, rd, rs, v, hi, hz, hv, hrs, hrd, rfl⟩
  · rintro ⟨c, rd, rs, v, hi, hz, hv, hrs, hrd, rfl⟩
    exact ⟨(), hz, rd, hrd, rs, hrs, v, hv, hi⟩

theorem decodeTRV_eq_ok_iff {k : Cond → DType → Reg → Value → Instr} (hop : field w 0 6 = op) :
    decodeTRV w k = .ok i ↔ ∃ c dt rs v,
      typedOperandOk dt v = true ∧ k c dt rs v = i ∧ w = wordTRV op c dt rs v := by
  subst hop
  simp only [decodeTRV, bind_eq_ok_iff, checkZero_eq_ok_iff w 55 9 rfl, decodeType_eq_ok_iff,
    decodeReg_eq_ok_iff, decodeValue_eq_ok_iff, checkTyped_eq_ok_iff,
    eq_wordTRV_iff, header_eq_iff, pure_eq_ok_iff]
  constructor
  · rintro ⟨-, hz, dt, hdt, rs, hrs, v, hv, -, hok, hi⟩
    exact ⟨_, dt, rs, v, hok, hi, hz, hv, hrs, hdt, rfl⟩
  · rintro ⟨c, dt, rs, v, hok, hi, hz, hv, hrs, hdt, rfl⟩
    exact ⟨(), hz, dt, hdt, rs, hrs, v, hv, (), hok, hi⟩

theorem decodeRR_eq_ok_iff {k : Cond → Reg → Reg → Instr} (hop : field w 0 6 = op) :
    decodeRR w k = .ok i ↔ ∃ c rd rs, k c rd rs = i ∧ w = wordRR op c rd rs := by
  subst hop
  simp only [decodeRR, bind_eq_ok_iff, checkZero_eq_ok_iff w 26 38 rfl, decodeReg_eq_ok_iff,
    eq_wordRR_iff, header_eq_iff, pure_eq_ok_iff]
  constructor
  · rintro ⟨-, hz, rd, hrd, rs, hrs, hi⟩
    exact ⟨_, rd, rs, hi, hz, hrs, hrd, rfl⟩
  · rintro ⟨c, rd, rs, hi, hz, hrs, hrd, rfl⟩
    exact ⟨(), hz, rd, hrd, rs, hrs, hi⟩

theorem decodeV_eq_ok_iff {k : Cond → Value → Instr} (hop : field w 0 6 = op) :
    decodeV w k = .ok i ↔ ∃ c v, k c v = i ∧ w = wordV op c v := by
  subst hop
  simp only [decodeV, bind_eq_ok_iff, checkZero_eq_ok_iff w 44 20 rfl, decodeValue_eq_ok_iff,
    eq_wordV_iff, header_eq_iff, pure_eq_ok_iff]
  constructor
  · rintro ⟨-, hz, v, hv, hi⟩
    exact ⟨_, v, hi, hz, hv, rfl⟩
  · rintro ⟨c, v, hi, hz, hv, rfl⟩
    exact ⟨(), hz, v, hv, hi⟩

theorem decodeRA_eq_ok_iff {k : Cond → Reg → Addr → Instr} (hop : field w 0 6 = op) :
    decodeRA w k = .ok i ↔ ∃ c rs a, k c rs a = i ∧ w = wordRV op c rs a.toValue := by
  subst hop
  simp only [decodeRA, bind_eq_ok_iff, checkZero_eq_ok_iff w 52 12 rfl, decodeReg_eq_ok_iff,
    decodeAddr_eq_ok_iff, eq_wordRV_iff, header_eq_iff, pure_eq_ok_iff]
  constructor
  · rintro ⟨-, hz, rs, hrs, a, ha, hi⟩
    exact ⟨_, rs, a, hi, hz, ha, hrs, rfl⟩
  · rintro ⟨c, rs, a, hi, hz, ha, hrs, rfl⟩
    exact ⟨(), hz, rs, hrs, a, ha, hi⟩

end Formats

/-! ## The round trips -/

/-- The low six bits of the word of an instruction are its opcode (rules R61, R86). -/
theorem field_encode_opcode (i : Instr) : field (encode i) 0 6 = i.opcode := by
  cases i with
  | nop => rfl
  | _ => exact Laws.OpcodeField.header_opcode _ _ _

/-- Settles O1: the opcode of the word selects the format the word was laid out in, and the decoder of
that format answers the operands. -/
theorem decodeOfEncode : Obligations.DecodeOfEncode := by
  intro i hwf
  have hop := field_encode_opcode i
  rw [decode, hop]
  cases i with
  | nop => rfl
  | load c rd v => exact (decodeRV_eq_ok_iff hop).mpr ⟨c, rd, v, rfl, rfl⟩
  | loadu c rd v => exact (decodeRV_eq_ok_iff hop).mpr ⟨c, rd, v, rfl, rfl⟩
  | store c rs a => exact (decodeRA_eq_ok_iff hop).mpr ⟨c, rs, a, rfl, rfl⟩
  | add c dt rd rs v => exact (decodeTRRV_eq_ok_iff hop).mpr ⟨c, dt, rd, rs, v, hwf, rfl, rfl⟩
  | sub c dt rd rs v => exact (decodeTRRV_eq_ok_iff hop).mpr ⟨c, dt, rd, rs, v, hwf, rfl, rfl⟩
  | mul c dt rd rs v => exact (decodeTRRV_eq_ok_iff hop).mpr ⟨c, dt, rd, rs, v, hwf, rfl, rfl⟩
  | div c dt rd rs v => exact (decodeTRRV_eq_ok_iff hop).mpr ⟨c, dt, rd, rs, v, hwf, rfl, rfl⟩
  | idiv c dt rd rs v => exact (decodeTRRV_eq_ok_iff hop).mpr ⟨c, dt, rd, rs, v, hwf, rfl, rfl⟩
  | cmp c dt rs v => exact (decodeTRV_eq_ok_iff hop).mpr ⟨c, dt, rs, v, hwf, rfl, rfl⟩
  | not c rd rs => exact (decodeRR_eq_ok_iff hop).mpr ⟨c, rd, rs, rfl, rfl⟩
  | and c rd rs v => exact (decodeRRV_eq_ok_iff hop).mpr ⟨c, rd, rs, v, rfl, rfl⟩
  | or c rd rs v => exact (decodeRRV_eq_ok_iff hop).mpr ⟨c, rd, rs, v, rfl, rfl⟩
  | xor c rd rs v => exact (decodeRRV_eq_ok_iff hop).mpr ⟨c, rd, rs, v, rfl, rfl⟩
  | shr c rd rs v => exact (decodeRRV_eq_ok_iff hop).mpr ⟨c, rd, rs, v, rfl, rfl⟩
  | shl c rd rs v => exact (decodeRRV_eq_ok_iff hop).mpr ⟨c, rd, rs, v, rfl, rfl⟩
  | push c v => exact (decodeV_eq_ok_iff hop).mpr ⟨c, v, rfl, rfl⟩
  | call c v => exact (decodeV_eq_ok_iff hop).mpr ⟨c, v, rfl, rfl⟩
  | ret c => exact (decodeZ_eq_ok_iff hop).mpr ⟨c, rfl, rfl⟩
  | syscall c v => exact (decodeV_eq_ok_iff hop).mpr ⟨c, v, rfl, rfl⟩

/-- Settles O2: the decoder of the format its opcode selects accepts only the words of that format. -/
theorem encodeOfDecode : Obligations.EncodeOfDecode := by
  intro w i h
  have hop : field w 0 6 = BitVec.ofNat 6 (field w 0 6).toNat := by simp
  unfold decode at h
  generalize (field w 0 6).toNat = n at h hop
  split at h
  · split_ifs at h with hw
    cases h
    exact ⟨rfl, hw.symm⟩
  · obtain ⟨c, rd, v, rfl, rfl⟩ := (decodeRV_eq_ok_iff hop).mp h
    exact ⟨rfl, rfl⟩
  · obtain ⟨c, rd, v, rfl, rfl⟩ := (decodeRV_eq_ok_iff hop).mp h
    exact ⟨rfl, rfl⟩
  · obtain ⟨c, rs, a, rfl, rfl⟩ := (decodeRA_eq_ok_iff hop).mp h
    exact ⟨rfl, rfl⟩
  · obtain ⟨c, dt, rd, rs, v, hok, rfl, rfl⟩ := (decodeTRRV_eq_ok_iff hop).mp h
    exact ⟨hok, rfl⟩
  · obtain ⟨c, dt, rd, rs, v, hok, rfl, rfl⟩ := (decodeTRRV_eq_ok_iff hop).mp h
    exact ⟨hok, rfl⟩
  · obtain ⟨c, dt, rd, rs, v, hok, rfl, rfl⟩ := (decodeTRRV_eq_ok_iff hop).mp h
    exact ⟨hok, rfl⟩
  · obtain ⟨c, dt, rd, rs, v, hok, rfl, rfl⟩ := (decodeTRRV_eq_ok_iff hop).mp h
    exact ⟨hok, rfl⟩
  · obtain ⟨c, dt, rd, rs, v, hok, rfl, rfl⟩ := (decodeTRRV_eq_ok_iff hop).mp h
    exact ⟨hok, rfl⟩
  · obtain ⟨c, dt, rs, v, hok, rfl, rfl⟩ := (decodeTRV_eq_ok_iff hop).mp h
    exact ⟨hok, rfl⟩
  · obtain ⟨c, rd, rs, rfl, rfl⟩ := (decodeRR_eq_ok_iff hop).mp h
    exact ⟨rfl, rfl⟩
  · obtain ⟨c, rd, rs, v, rfl, rfl⟩ := (decodeRRV_eq_ok_iff hop).mp h
    exact ⟨rfl, rfl⟩
  · obtain ⟨c, rd, rs, v, rfl, rfl⟩ := (decodeRRV_eq_ok_iff hop).mp h
    exact ⟨rfl, rfl⟩
  · obtain ⟨c, rd, rs, v, rfl, rfl⟩ := (decodeRRV_eq_ok_iff hop).mp h
    exact ⟨rfl, rfl⟩
  · obtain ⟨c, rd, rs, v, rfl, rfl⟩ := (decodeRRV_eq_ok_iff hop).mp h
    exact ⟨rfl, rfl⟩
  · obtain ⟨c, rd, rs, v, rfl, rfl⟩ := (decodeRRV_eq_ok_iff hop).mp h
    exact ⟨rfl, rfl⟩
  · obtain ⟨c, v, rfl, rfl⟩ := (decodeV_eq_ok_iff hop).mp h
    exact ⟨rfl, rfl⟩
  · obtain ⟨c, v, rfl, rfl⟩ := (decodeV_eq_ok_iff hop).mp h
    exact ⟨rfl, rfl⟩
  · obtain ⟨c, rfl, rfl⟩ := (decodeZ_eq_ok_iff hop).mp h
    exact ⟨rfl, rfl⟩
  · obtain ⟨c, v, rfl, rfl⟩ := (decodeV_eq_ok_iff hop).mp h
    exact ⟨rfl, rfl⟩
  · cases h

end Sys2Proof

namespace Sys2Proof.Machine

/-! ## What each part of the decoder rejects -/

/-- A part of the decoder rejects what it is given. -/
def Fails {ε α : Type} (x : Except ε α) : Prop := ∃ e, x = .error e

section Fails
variable {ε α β : Type}

theorem fails_ok_iff (a : α) : Fails (.ok a : Except ε α) ↔ False := by simp [Fails]

theorem fails_error_iff (e : ε) : Fails (.error e : Except ε α) ↔ True := by simp [Fails]

theorem fails_map_iff (x : Except ε α) (f : α → β) : Fails (x.map f) ↔ Fails x := by
  cases x <;> simp [Fails, Except.map]

/-- A sequence fails in its first part, or in its second, where that does not depend on the answers of
the first. -/
theorem fails_bind_iff {x : Except ε α} {f : α → Except ε β} {P : Prop}
    (h : ∀ a, x = .ok a → (Fails (f a) ↔ P)) : Fails (x >>= f) ↔ Fails x ∨ P := by
  cases x with
  | error e => simp [Fails, bind, Except.bind]
  | ok a => rw [fails_ok_iff, false_or]; exact h a rfl

/-- The last part of a format, which only builds the instruction. -/
theorem fails_bind_pure_iff (x : Except ε α) (f : α → β) :
    Fails (x >>= fun a => pure (f a)) ↔ Fails x := by
  cases x <;> simp [Fails, bind, Except.bind, pure, Except.pure]

end Fails

/-- The bits `hi` down to `lo` are a field. -/
theorem bitsOf_eq_field (w : Word) (hi lo len : Nat) (h : hi + 1 - lo = len) :
    bitsOf w hi lo = (field w lo len).toNat :=
  h ▸ (field_toNat ..).symm

/-- Must-be-zero bits are rejected when one is set (rule R87 case 3). -/
theorem fails_checkZero_iff (w : Word) (lo : Nat) (h : lo ≤ 64) :
    Fails (checkZero w lo) ↔ bitsOf w 63 lo ≠ 0 := by
  have hok := checkZero_eq_ok_iff w lo (64 - lo) (by omega) ()
  have hzero : bitsOf w 63 lo = 0 ↔ field w lo (64 - lo) = 0 := by
    rw [bitsOf_eq_field w 63 lo (64 - lo) rfl, ← BitVec.toNat_inj]
    rfl
  rw [Ne, hzero, ← hok]
  cases checkZero w lo <;> simp [Fails]

/-- A register field is rejected from number 30 up (rule R87 case 4). -/
theorem fails_decodeReg_iff (b : BitVec 8) : Fails (decodeReg b) ↔ 30 ≤ b.toNat := by
  have hsome := reg_ofNumber_isSome b.toNat
  rw [decodeReg]
  cases hr : Reg.ofNumber b.toNat with
  | none => simpa [fails_error_iff, hr] using hsome
  | some r => simpa [fails_ok_iff, hr] using hsome

/-- A data-type field is rejected when it is 3 or 7 (rule R87 case 7). -/
theorem fails_decodeType_iff (b : BitVec 3) : Fails (decodeType b) ↔ b.toNat = 3 ∨ b.toNat = 7 := by
  have hlt : b.toNat < 8 := b.isLt
  rw [decodeType]
  generalize b.toNat = n at hlt
  interval_cases n <;> simp [Fails]

/-- An operand field is rejected for a register number from 30 up in a register mode, and in mode 10
for data above the register number (rule R87 cases 4 and 5). -/
theorem fails_decodeValue_iff (n : BitVec 24) (b : BitVec 8) (mode : BitVec 2) :
    Fails (decodeValue (n ++ b ++ mode)) ↔
      (2 ≤ mode.toNat ∧ 30 ≤ b.toNat) ∨ (mode.toNat = 2 ∧ n.toNat ≠ 0) := by
  obtain rfl | rfl | rfl | rfl := mode_cases mode
  · rw [decodeValue_imm]; simp [fails_ok_iff]
  · rw [decodeValue_mem]; simp [fails_ok_iff]
  · rw [decodeValue_reg]
    by_cases hn : n = 0
    · simp [hn, fails_map_iff, fails_decodeReg_iff]
    · have : n.toNat ≠ 0 := fun h => hn (BitVec.eq_of_toNat_eq h)
      rw [if_neg hn]
      simp [this, fails_error_iff]
  · rw [decodeValue_ind]; simp [fails_map_iff, fails_decodeReg_iff]

/-! ## The fields of a word, as numbers -/

section Operand
variable (w : Word) (p : Nat)

/-- The register fields of a word that are rejected (rules R25, R87 case 4). -/
theorem fails_reg_iff : Fails (decodeReg (field w p 8)) ↔ 30 ≤ bitsOf w (p + 7) p := by
  rw [fails_decodeReg_iff, bitsOf_eq_field w (p + 7) p 8 (by omega)]

/-- The data-type fields of a word that are rejected (rule R87 case 7). -/
theorem fails_type_iff :
    Fails (decodeType (field w 10 3)) ↔ bitsOf w 12 10 = 3 ∨ bitsOf w 12 10 = 7 := by
  rw [fails_decodeType_iff, bitsOf_eq_field w 12 10 3 rfl]

/-- The operand fields of a word that are rejected (rule R87 cases 4 and 5). -/
theorem fails_value_iff : Fails (decodeValue (field w p 34)) ↔
    (2 ≤ bitsOf w (p + 1) p ∧ 30 ≤ bitsOf w (p + 9) (p + 2)) ∨
      (bitsOf w (p + 1) p = 2 ∧ bitsOf w (p + 33) (p + 10) ≠ 0) := by
  obtain ⟨n, b, mode, h⟩ := exists_operand_parts (field w p 34)
  obtain ⟨⟨hn, hb⟩, hmode⟩ :
      (field w (p + 2 + 8) 24 = n ∧ field w (p + 2) 8 = b) ∧ field w p 2 = mode := by
    simpa only [field_eq_append_iff] using (show field w p (24 + 8 + 2) = n ++ b ++ mode from h)
  rw [h, fails_decodeValue_iff, ← hn, ← hb, ← hmode,
    bitsOf_eq_field w (p + 1) p 2 (by omega), bitsOf_eq_field w (p + 9) (p + 2) 8 (by omega),
    bitsOf_eq_field w (p + 33) (p + 10) 24 (by omega)]

/-- The mode of an operand (rule R69). -/
def modeOf : Value → Nat
  | .imm _ => 0
  | .mem _ => 1
  | .reg _ => 2
  | .ind _ _ => 3

/-- The mode bits of a word whose operand field decodes. -/
theorem mode_of_decodeValue (v : Value) (h : decodeValue (field w p 34) = .ok v) :
    bitsOf w (p + 1) p = modeOf v := by
  have low {n : Nat} (x : BitVec n) (m : BitVec 2) (hx : field w p (n + 2) = x ++ m) :
      bitsOf w (p + 1) p = m.toNat := by
    rw [← ((field_eq_append_iff ..).mp hx).2, bitsOf_eq_field w (p + 1) p 2 (by omega)]
  replace h := (decodeValue_eq_ok_iff ..).mp h
  cases v with
  | imm data => exact low data 0#2 h
  | mem addr => exact low addr 1#2 h
  | reg r => exact low (0#24 ++ encodeReg r) 2#2 h
  | ind r n => exact low (n ++ encodeReg r) 3#2 h

/-- The `<addr>` fields of a word that are rejected: a `<value>`'s, and mode 00 (rule R87 case 6). -/
theorem fails_addr_iff : Fails (decodeAddr (field w p 34)) ↔
    Fails (decodeValue (field w p 34)) ∨ bitsOf w (p + 1) p = 0 := by
  have hmode := mode_of_decodeValue w p
  rw [decodeAddr]
  cases hv : decodeValue (field w p 34) with
  | error e => simp [Fails]
  | ok v =>
    rw [hmode v hv]
    cases v <;> simp [Fails, modeOf]

/-- The type and the operand rejected together: type `d`, its code 5, with a mode other than 10 (rule
R87 case 8). -/
theorem fails_typed_iff (dt : DType) (v : Value) (ht : decodeType (field w 10 3) = .ok dt)
    (hv : decodeValue (field w p 34) = .ok v) :
    Fails (checkTyped dt v) ↔ bitsOf w 12 10 = 5 ∧ bitsOf w (p + 1) p ≠ 2 := by
  rw [mode_of_decodeValue w p v hv, bitsOf_eq_field w 12 10 3 rfl, (decodeType_eq_ok_iff ..).mp ht,
    checkTyped]
  cases dt <;> cases v <;> simp [Fails, typedOperandOk, Value.isReg, modeOf, DType.code]

end Operand

/-! ## The illegal words of each format

The tables of rule R87 give each opcode a layout; the decoder of a format rejects the words with an
illegal field in its layout, whatever instruction it would build. -/

/-- What rule R87 asks of a format: where its must-be-zero bits, its register fields and its operand
start, whether the operand is an `<addr>`, and whether there is a data type. -/
structure Layout where
  zero : Nat
  regs : List Nat
  operand : Option Nat
  addr : Bool
  typed : Bool

/-- The layout of an opcode, from the tables that rule R87 is stated with. -/
def layoutOf (op : Nat) : Layout :=
  ⟨zeroFrom op, regFieldsAt op, operandAt op, op = 3, op ∈ [4, 5, 6, 7, 8, 9]⟩

/-- Cases 3 to 8 of rule R87 on the words of a layout. -/
def IllegalFields (w : Word) (L : Layout) : Prop :=
  bitsOf w 63 L.zero ≠ 0 ∨
  (∃ p ∈ L.regs, 30 ≤ bitsOf w (p + 7) p) ∨
  (∃ p, L.operand = some p ∧ 2 ≤ bitsOf w (p + 1) p ∧ 30 ≤ bitsOf w (p + 9) (p + 2)) ∨
  (∃ p, L.operand = some p ∧ bitsOf w (p + 1) p = 2 ∧ bitsOf w (p + 33) (p + 10) ≠ 0) ∨
  (L.addr ∧ bitsOf w 19 18 = 0) ∨
  (L.typed ∧ (bitsOf w 12 10 = 3 ∨ bitsOf w 12 10 = 7)) ∨
  (L.typed ∧ bitsOf w 12 10 = 5 ∧ ∃ p, L.operand = some p ∧ bitsOf w (p + 1) p ≠ 2)

/-- The rule's list, by opcode (rule R87). -/
theorem illegalWord_iff (w : Word) : IllegalWord w ↔
    20 ≤ bitsOf w 5 0 ∨ (bitsOf w 5 0 = 0 ∧ bitsOf w 63 6 ≠ 0) ∨
      (bitsOf w 5 0 ≠ 0 ∧ bitsOf w 5 0 < 20 ∧ IllegalFields w (layoutOf (bitsOf w 5 0))) := by
  simp only [IllegalWord, IllegalFields, layoutOf, decide_eq_true_eq]

/-- A format rejects the illegal words where it rejects the illegal fields of its opcode. -/
theorem fails_iff_illegalWord {α : Type} {w : Word} {op : Nat} {x : Except DecodeError α}
    (hop : bitsOf w 5 0 = op) (hassigned : op ≠ 0 ∧ op < 20)
    (hx : Fails x ↔ IllegalFields w (layoutOf op)) : Fails x ↔ IllegalWord w := by
  obtain ⟨h0, h20⟩ := hassigned
  rw [illegalWord_iff, hop, hx]
  simp [h0, h20, Nat.not_le.mpr h20]

section Formats
variable (w : Word)

theorem fails_decodeZ_iff (k : Cond → Instr) :
    Fails (decodeZ w k) ↔ IllegalFields w ⟨10, [], none, false, false⟩ := by
  rw [decodeZ, fails_bind_pure_iff .., fails_checkZero_iff w 10 (by decide)]
  simp [IllegalFields]

theorem fails_decodeRV_iff (k : Cond → Reg → Value → Instr) :
    Fails (decodeRV w k) ↔ IllegalFields w ⟨52, [10], some 18, false, false⟩ := by
  have hparts : Fails (decodeRV w k) ↔ Fails (checkZero w 52) ∨ Fails (decodeReg (field w 10 8)) ∨
      Fails (decodeValue (field w 18 34)) :=
    fails_bind_iff fun _ _ => fails_bind_iff fun _ _ => fails_bind_pure_iff ..
  rw [hparts, fails_checkZero_iff w 52 (by decide), fails_reg_iff, fails_value_iff]
  simp [IllegalFields]

theorem fails_decodeRA_iff (k : Cond → Reg → Addr → Instr) :
    Fails (decodeRA w k) ↔ IllegalFields w ⟨52, [10], some 18, true, false⟩ := by
  have hparts : Fails (decodeRA w k) ↔ Fails (checkZero w 52) ∨ Fails (decodeReg (field w 10 8)) ∨
      Fails (decodeAddr (field w 18 34)) :=
    fails_bind_iff fun _ _ => fails_bind_iff fun _ _ => fails_bind_pure_iff ..
  rw [hparts, fails_checkZero_iff w 52 (by decide), fails_reg_iff, fails_addr_iff, fails_value_iff]
  grind [IllegalFields]

theorem fails_decodeTRRV_iff (k : Cond → DType → Reg → Reg → Value → Instr) :
    Fails (decodeTRRV w k) ↔ IllegalFields w ⟨63, [13, 21], some 29, false, true⟩ := by
  have hparts : Fails (decodeTRRV w k) ↔ Fails (checkZero w 63) ∨ Fails (decodeType (field w 10 3)) ∨
      Fails (decodeReg (field w 13 8)) ∨ Fails (decodeReg (field w 21 8)) ∨
      Fails (decodeValue (field w 29 34)) ∨ (bitsOf w 12 10 = 5 ∧ bitsOf w 30 29 ≠ 2) :=
    fails_bind_iff fun _ _ => fails_bind_iff fun dt ht => fails_bind_iff fun _ _ =>
      fails_bind_iff fun _ _ => fails_bind_iff fun v hv =>
        (fails_bind_pure_iff ..).trans (fails_typed_iff w 29 dt v ht hv)
  rw [hparts, fails_checkZero_iff w 63 (by decide),
    fails_type_iff, fails_reg_iff, fails_reg_iff, fails_value_iff]
  grind [IllegalFields]

theorem fails_decodeRRV_iff (k : Cond → Reg → Reg → Value → Instr) :
    Fails (decodeRRV w k) ↔ IllegalFields w ⟨60, [10, 18], some 26, false, false⟩ := by
  have hparts : Fails (decodeRRV w k) ↔ Fails (checkZero w 60) ∨ Fails (decodeReg (field w 10 8)) ∨
      Fails (decodeReg (field w 18 8)) ∨ Fails (decodeValue (field w 26 34)) :=
    fails_bind_iff fun _ _ => fails_bind_iff fun _ _ => fails_bind_iff fun _ _ => fails_bind_pure_iff ..
  rw [hparts, fails_checkZero_iff w 60 (by decide), fails_reg_iff, fails_reg_iff, fails_value_iff]
  grind [IllegalFields]

theorem fails_decodeTRV_iff (k : Cond → DType → Reg → Value → Instr) :
    Fails (decodeTRV w k) ↔ IllegalFields w ⟨55, [13], some 21, false, true⟩ := by
  have hparts : Fails (decodeTRV w k) ↔ Fails (checkZero w 55) ∨ Fails (decodeType (field w 10 3)) ∨
      Fails (decodeReg (field w 13 8)) ∨ Fails (decodeValue (field w 21 34)) ∨
      (bitsOf w 12 10 = 5 ∧ bitsOf w 22 21 ≠ 2) :=
    fails_bind_iff fun _ _ => fails_bind_iff fun dt ht => fails_bind_iff fun _ _ =>
      fails_bind_iff fun v hv => (fails_bind_pure_iff ..).trans (fails_typed_iff w 21 dt v ht hv)
  rw [hparts, fails_checkZero_iff w 55 (by decide), fails_type_iff, fails_reg_iff, fails_value_iff]
  grind [IllegalFields]

theorem fails_decodeRR_iff (k : Cond → Reg → Reg → Instr) :
    Fails (decodeRR w k) ↔ IllegalFields w ⟨26, [10, 18], none, false, false⟩ := by
  have hparts : Fails (decodeRR w k) ↔ Fails (checkZero w 26) ∨ Fails (decodeReg (field w 10 8)) ∨
      Fails (decodeReg (field w 18 8)) :=
    fails_bind_iff fun _ _ => fails_bind_iff fun _ _ => fails_bind_pure_iff ..
  rw [hparts, fails_checkZero_iff w 26 (by decide), fails_reg_iff, fails_reg_iff]
  grind [IllegalFields]

theorem fails_decodeV_iff (k : Cond → Value → Instr) :
    Fails (decodeV w k) ↔ IllegalFields w ⟨44, [], some 10, false, false⟩ := by
  have hparts : Fails (decodeV w k) ↔ Fails (checkZero w 44) ∨ Fails (decodeValue (field w 10 34)) :=
    fails_bind_iff fun _ _ => fails_bind_pure_iff ..
  rw [hparts, fails_checkZero_iff w 44 (by decide), fails_value_iff]
  simp [IllegalFields]

end Formats

/-- Opcode 0 is legal in the word 0 only (rule R87 case 2). -/
theorem fails_nop_iff (w : Word) (hop : bitsOf w 5 0 = 0) :
    Fails (if w = 0 then .ok Instr.nop else .error DecodeError.nopBits) ↔ IllegalWord w := by
  have hzero : w = 0 ↔ bitsOf w 63 6 = 0 := by
    have hw := w.isLt
    rw [← BitVec.toNat_inj]
    change w.toNat = 0 ↔ w.toNat / 2 ^ 6 % 2 ^ 58 = 0
    change w.toNat / 2 ^ 0 % 2 ^ 6 = 0 at hop
    omega
  rw [illegalWord_iff, hop]
  by_cases hw : w = 0
  · rw [if_pos hw]
    simp [fails_ok_iff, hzero.mp hw]
  · rw [if_neg hw]
    simp [fails_error_iff, mt hzero.mpr hw]

/-- Settles O3: the format the opcode selects rejects a word exactly in the cases of its layout. -/
theorem decodeRejectsExactlyIllegalWords : Obligations.DecodeRejectsExactlyIllegalWords := by
  intro w
  change Fails (decode w) ↔ IllegalWord w
  have hop : bitsOf w 5 0 = (field w 0 6).toNat := bitsOf_eq_field w 5 0 6 rfl
  rw [decode]
  generalize (field w 0 6).toNat = op at hop
  split
  · exact fails_nop_iff w hop
  · exact fails_iff_illegalWord hop (by decide) (fails_decodeRV_iff w _)
  · exact fails_iff_illegalWord hop (by decide) (fails_decodeRV_iff w _)
  · exact fails_iff_illegalWord hop (by decide) (fails_decodeRA_iff w _)
  · exact fails_iff_illegalWord hop (by decide) (fails_decodeTRRV_iff w _)
  · exact fails_iff_illegalWord hop (by decide) (fails_decodeTRRV_iff w _)
  · exact fails_iff_illegalWord hop (by decide) (fails_decodeTRRV_iff w _)
  · exact fails_iff_illegalWord hop (by decide) (fails_decodeTRRV_iff w _)
  · exact fails_iff_illegalWord hop (by decide) (fails_decodeTRRV_iff w _)
  · exact fails_iff_illegalWord hop (by decide) (fails_decodeTRV_iff w _)
  · exact fails_iff_illegalWord hop (by decide) (fails_decodeRR_iff w _)
  · exact fails_iff_illegalWord hop (by decide) (fails_decodeRRV_iff w _)
  · exact fails_iff_illegalWord hop (by decide) (fails_decodeRRV_iff w _)
  · exact fails_iff_illegalWord hop (by decide) (fails_decodeRRV_iff w _)
  · exact fails_iff_illegalWord hop (by decide) (fails_decodeRRV_iff w _)
  · exact fails_iff_illegalWord hop (by decide) (fails_decodeRRV_iff w _)
  · exact fails_iff_illegalWord hop (by decide) (fails_decodeV_iff w _)
  · exact fails_iff_illegalWord hop (by decide) (fails_decodeV_iff w _)
  · exact fails_iff_illegalWord hop (by decide) (fails_decodeZ_iff w _)
  · exact fails_iff_illegalWord hop (by decide) (fails_decodeV_iff w _)
  · rw [fails_error_iff, illegalWord_iff, hop, true_iff]
    have h20 : 20 ≤ op := by grind
    exact .inl h20

/-! ## The step over an illegal word -/

/-- The word fetched is the one whose bytes stand at `$ip` (rules R27, R45, R60). -/
theorem fetchWord_of_bytesAtIp (s : State) (w : Word) (hin : s.FetchInRange)
    (hb : s.bytesAtIp = wordBytes w) : s.fetchWord = .ok w :=
  memRead_of_bytes s _ 8 w hin fun k hk => List.map_inj_left.mp hb k (List.mem_range.mpr hk)

/-- A step whose fetched word is rejected (rules R27, R87, R304). -/
theorem step_of_decode_error (s : State) (w : Word) (hrun : ¬ s.Halted) (hf : s.fetchWord = .ok w)
    (hd : Fails (decode w)) : step s = .next (s.advance.raise .illegalInstruction) := by
  obtain ⟨e, he⟩ := hd
  rw [step, if_pos ((running_iff s).mpr hrun)]
  simp only [hf, he, conclude_error]

/-- Settles O6: the decoder rejects the word before its condition is looked at. -/
theorem illegalWordFaults : Obligations.IllegalWordFaults := fun s w hrun hin hb hw =>
  ⟨_, step_of_decode_error s w hrun (fetchWord_of_bytesAtIp s w hin hb)
    ((decodeRejectsExactlyIllegalWords w).mpr hw), raise_took ..⟩

/-! ## The condition -/

/-- An instruction whose condition fails answers the same state (rule R63). -/
theorem exec_of_not_passes (i : Instr) (s : State) (h : i.passes s = false) : exec i s = .next s := by
  cases i with
  | nop => rfl
  | _ => exact conditional_skip s _ _ h

/-- The condition looks at `$flag` and the configuration only, which the advance of `$ip` keeps. -/
theorem passes_advance (i : Instr) (s : State) : i.passes s.advance = i.passes s := by
  cases i <;> rfl

/-- Settles O10: the step over a skipped instruction is the advance of `$ip`. -/
theorem failedConditionSkips : Obligations.FailedConditionSkips := by
  refine ⟨exec_of_not_passes, fun s i hrun hin hi hfail => ?_, fun m cc w => ⟨rfl, ?_⟩, fun _ => rfl⟩
  · refine ⟨s.advance, ?_, advance_ip s, advance_onlyIpMoved s⟩
    rw [step_of_decode s i hrun hin hi, exec_of_not_passes i _ ((passes_advance i s).trans hfail)]
  · simp [condHolds]

/-- The order bits of `$flag` as the semantic reading tests them: bits 2 and 1 (rule R64). -/
theorem orderBits_eq_iff (w : Word) (b : BitVec 2) :
    (w.extractLsb' 1 2 == b) = true ↔ w.getLsbD 2 = b.getLsbD 1 ∧ w.getLsbD 1 = b.getLsbD 0 := by
  rw [beq_iff_eq]
  refine ⟨fun h => by simp [← h], fun ⟨h2, h1⟩ => BitVec.eq_of_getLsbD_eq fun i hi => ?_⟩
  rw [BitVec.getLsbD_extractLsb', decide_eq_true hi, Bool.true_and]
  obtain rfl | rfl : i = 0 ∨ i = 1 := by omega
  · exact h1
  · exact h2

/-- The literal reading compares the three bits of the code (rule R64). -/
theorem matchLiteral_iff (cc : CC) (w : Word) :
    matchLiteral cc w = true ↔ ∀ i, i < 3 → cc.code.getLsbD i = w.getLsbD i := by
  have hbit : ∀ i, i < 3 → (flagCmp w).getLsbD i = w.getLsbD i := fun i hi => by simp [flagCmp, hi]
  rw [matchLiteral, beq_iff_eq]
  exact ⟨fun h i hi => h ▸ hbit i hi,
    fun h => BitVec.eq_of_getLsbD_eq fun i hi => (h i hi).trans (hbit i hi).symm⟩

/-- Settles O9: a semantic code tests bit 0, bit 3, or the order bits, a literal one its three bits. -/
theorem conditionPredicate : Obligations.ConditionPredicate := by
  refine ⟨rfl, fun w => ⟨?ne, ?eq, ?lt, ?le, ?gt, ?ge, ?z, ?nz, fun cc => matchLiteral_iff cc w,
    rfl, rfl, rfl, rfl, rfl, rfl, rfl, rfl⟩⟩
  case ne => simp [matchCC, matchSemantic]
  case eq => exact Iff.rfl
  case lt => exact orderBits_eq_iff w 0b01#2
  case le => exact (Bool.or_eq_true_iff ..).trans (or_congr (orderBits_eq_iff w 0b01#2) Iff.rfl)
  case gt => exact orderBits_eq_iff w 0b11#2
  case ge => exact (Bool.or_eq_true_iff ..).trans (or_congr (orderBits_eq_iff w 0b11#2) Iff.rfl)
  case z => exact Iff.rfl
  case nz => simp [matchCC, matchSemantic, flagZ]

/-! ## Operands -/

/-- Zero-extension keeps the number. -/
theorem setWidth_half_toNat (b : Half) : (b.setWidth 64).toNat = b.toNat :=
  BitVec.toNat_setWidth_of_le (by decide)

/-- Zero-extension keeps the fields of the half-word. -/
theorem setWidth_half_extract (b : Half) (lo len : Nat) (h : lo + len ≤ 32) :
    (b.setWidth 64).extractLsb' lo len = b.extractLsb' lo len := by
  ext i hi
  simp
  omega

/-- A memory operand, untyped: its four bytes zero-extended, or the fault of its address (rules R42,
R47, R71). -/
theorem valZ_of_readHalf (s : State) (v : Value) (a : Word) (h : s.opRead v = s.readHalf a) :
    (a.toNat + 4 ≤ s.cfg.memSize → ∃ b : Word, s.valZ v = .ok b ∧ b.toNat < 2 ^ 32 ∧
      ∀ k, k < 4 → b.extractLsb' (8 * k) 8 = s.byteAt (a.toNat + k)) ∧
    (s.cfg.memSize < a.toNat + 4 → s.valZ v = .error (.memRange a.toNat)) := by
  rw [readHalf_eq] at h
  constructor
  · intro hr
    rw [if_pos hr] at h
    refine ⟨(s.mem.readBytes a.toNat 4).setWidth 64, by rw [State.valZ, h]; rfl, ?_, fun k hk => ?_⟩
    · exact lt_of_eq_of_lt (setWidth_half_toNat _) (BitVec.isLt _)
    · rw [setWidth_half_extract _ _ _ (by omega)]
      exact memory_readBytes_byte s.mem 4 a.toNat k hk
  · intro hr
    rw [if_neg (by omega)] at h
    exact (opRead_error s v _ h).1

/-- Settles O14: a memory operand is read at the address its mode gives. -/
theorem untypedOperand : Obligations.UntypedOperand := by
  refine fun s => ⟨fun data => ⟨_, valZ_imm s data, setWidth_half_toNat data⟩, valZ_reg s,
    fun m => ?_, fun r n => ?_⟩
  · rw [← setWidth_half_toNat m]
    exact valZ_of_readHalf s _ _ rfl
  · exact ⟨s.indirect r n, indirect_toNat s r n, valZ_of_readHalf s _ _ rfl⟩

/-- A 32-bit operand that is read under a type is widened by it (rule R81). -/
theorem valT_of_half (s : State) (v : Value) (b : Half) (dt : DType) (h : s.opRead v = .ok (.half b)) :
    s.valT v dt = widenHalf dt b := by
  rw [State.valT, h]
  rfl

/-- A register operand under a type gives its low bits (rule R81). -/
theorem valT_of_full (s : State) (v : Value) (b : Word) (dt : DType) (h : s.opRead v = .ok (.full b)) :
    s.valT v dt = .ok (b.setWidth (typeWidth dt)) := by
  rw [State.valT, h]
  rfl

/-- The type `d` allows no 32-bit operand (rules R81, R87 case 8). -/
theorem double_refuses_half (s : State) (v : Value) (b : Half) (h : s.opRead v = .ok (.half b)) :
    typedOperandOk .d v = false := by
  cases v with
  | reg r => cases h
  | _ => rfl

/-- Settles O15: what a type does with an operand depends on the width of what was read. -/
theorem typedOperand : Obligations.TypedOperand := by
  refine fun s v => ⟨fun r dt => BitVec.toNat_setWidth .., fun b h dt => valT_of_full s v b dt h,
    fun b h => ?_, fun r dt h => (opRead_error s v r h).2 dt, rfl, rfl, rfl, rfl, rfl, rfl⟩
  have widen := fun dt => valT_of_half s v b dt h
  have hd := double_refuses_half s v b h
  exact ⟨widen .hu, widen .hs, widen .f, ⟨_, widen .u, setWidth_half_toNat b⟩,
    ⟨_, widen .s, BitVec.toInt_signExtend_of_le (by decide)⟩,
    fun _ _ _ => ⟨hd, hd, hd, hd, hd, hd⟩⟩

end Sys2Proof.Machine

/-! PROOFS. The statements about data transfer (`40_data_transfer.md`): the results of `load`, `loadu` and
`store` with their frames, and the pair that `loadw` expands to. -/

namespace Sys2Proof.Machine

/-! ## A load -/

/-- A condition with `test` = 0 lets every instruction run (rule R63). -/
theorem passes_always (s : State) : s.Passes .always := rfl

/-- A `load` whose operand is read writes it to the destination (rule R100). -/
theorem exec_load (s : State) (c : Cond) (rd : Reg) (v : Value) (b : Word) (hp : s.Passes c)
    (hv : s.valZ v = .ok b) : exec (.load c rd v) s = .next (s.writeDest rd b) := by
  change s.conditional c (s.conclude (s.valZ v >>= fun b => pure (s.writeDest rd b))) = _
  rw [conditional_pass s c _ hp, hv]
  rfl

/-- Settles O18: a `load` is a destination write of its operand. -/
theorem loadResult : Obligations.LoadResult := fun s c rd v b hp hv =>
  ⟨_, exec_load s c rd v b hp hv, writeDest_wrote s rd b⟩

/-- What `loadu` writes over `old` (rule R101): the low half of the operand above the low half of `old`. -/
def loaduWord (b old : Word) : Word := b.extractLsb' 0 32 ++ old.extractLsb' 0 32

/-- The two halves of what `loadu` writes, as numbers (rule R101). -/
theorem loaduWord_toNat (b old : Word) :
    (loaduWord b old).toNat = b.toNat % 2 ^ 32 * 2 ^ 32 + old.toNat % 2 ^ 32 := by
  have hlow : old.toNat % 2 ^ 32 < 2 ^ 32 := Nat.mod_lt _ (by decide)
  rw [loaduWord, BitVec.toNat_append, BitVec.extractLsb'_toNat, BitVec.extractLsb'_toNat,
    Nat.shiftRight_zero, Nat.shiftRight_zero, ← Nat.shiftLeft_add_eq_or_of_lt hlow,
    Nat.shiftLeft_eq]

/-- A `loadu` whose operand is read writes its low half above the lower half kept (rule R101). -/
theorem exec_loadu (s : State) (c : Cond) (rd : Reg) (v : Value) (b : Word) (hp : s.Passes c)
    (hv : s.valZ v = .ok b) :
    exec (.loadu c rd v) s = .next (s.writeDest rd (loaduWord b (s.readReg rd))) := by
  change s.conditional c (s.conclude (s.valZ v >>= fun b =>
    pure (s.writeDest rd (loaduWord b (s.readReg rd))))) = _
  rw [conditional_pass s c _ hp, hv]
  rfl

/-- Settles O19: a `loadu` is a destination write of the joined halves. -/
theorem loaduResult : Obligations.LoaduResult := fun s c rd v b hp hv =>
  ⟨_, loaduWord b (s.readReg rd), exec_loadu s c rd v b hp hv, writeDest_wrote s rd _,
    loaduWord_toNat b (s.readReg rd)⟩

/-! ## A store -/

/-- A `store` to a memory place out of range takes the fault of its address (rules R42, R102). -/
theorem exec_store_mem_error (s : State) (c : Cond) (rs : Reg) (a : Addr) (addr : Word)
    (hp : s.Passes c) (hl : s.loc a = .mem addr) (hr : ¬ addr.toNat + 4 ≤ s.cfg.memSize) :
    exec (.store c rs a) s = .next (s.raise (.memRange addr.toNat)) := by
  change s.conditional c (s.conclude _) = _
  rw [conditional_pass s c _ hp, hl]
  exact congrArg s.conclude (memWrite_error s addr 4 _ hr)

/-- A `store` to a register place copies the whole register (rule R102). -/
theorem exec_store_reg (s : State) (c : Cond) (rs r : Reg) (hp : s.Passes c) :
    exec (.store c rs (.reg r)) s = .next (s.writeReg r (s.readReg rs)) :=
  conditional_pass s c _ hp

/-- Settles O20: a memory place is written by one write of four bytes, a register place by one register
write. -/
theorem storeResult : Obligations.StoreResult := by
  refine ⟨fun s m => ⟨_, rfl, setWidth_half_toNat m⟩, fun s r => rfl,
    fun s r n => ⟨_, rfl, indirect_toNat s r n⟩,
    fun s c rs a addr hp hm hl => ⟨fun hr => ?_, fun hr => ?_⟩,
    fun s c rs r hp => ?_⟩
  · have hw := (memWrite_ok s _ addr 4 (s.readReg rs)).mpr ⟨hr, rfl⟩
    refine ⟨_, exec_store_mem s _ c rs a addr hp hl hw, fun k hk => ?_,
      memWrite_sameMemBut s _ addr 4 _ hm.1 hw, fun q _ => memWrite_readReg s _ addr 4 _ q hw,
      ⟨rfl, rfl, rfl⟩, rfl⟩
    rw [memWrite_byteAt s _ addr 4 _ hm.1 hw, if_pos (by omega), Nat.add_sub_cancel_left]
  · exact ⟨_, exec_store_mem_error s c rs a addr hp hl (by omega), raise_took s _⟩
  · refine ⟨_, exec_store_reg s c rs r hp, readReg_writeReg_self s r _,
      fun q hq => readReg_writeReg_of_ne s r q _ (List.ne_of_not_mem_cons hq), ?_,
      writeReg_byteAt s r _, ⟨writeReg_output .., writeReg_input .., writeReg_cfg ..⟩,
      writeReg_lastFault ..⟩
    rintro rfl q -
    rw [writeReg_zero]

/-! ## The pair of `loadw` -/

/-- The halves of a constant, loaded one above the other, give it back (rule R103). -/
theorem loaduWord_halves (k : Word) :
    loaduWord ((highHalf k).setWidth 64) ((lowHalf k).setWidth 64) = k := by
  rw [loaduWord, setWidth_half_extract _ _ _ le_rfl, setWidth_half_extract _ _ _ le_rfl, extract_all,
    extract_all]
  exact append_extract 32 (by decide) k

/-- Two changes that each keep every register but the listed ones keep them together. -/
theorem sameRegsBut_trans {rs : List Reg} {s t u : State} (h : SameRegsBut rs s t)
    (h' : SameRegsBut rs t u) : SameRegsBut rs s u :=
  fun r hr => (h' r hr).trans (h r hr)

/-- Settles O58: `load` leaves the low half in the register, `loadu` joins the high half to it. -/
theorem loadwLoadsConstant : Obligations.LoadwLoadsConstant := by
  intro s cached rd k hip hzero hflag
  obtain ⟨t, hload, low⟩ := loadResult s .always rd _ _ (passes_always s) (valZ_imm s (lowHalf k))
  have hloadu := exec_loadu t .always rd _ _ (passes_always t) (valZ_imm t (highHalf k))
  rw [low.dest hzero hflag, loaduWord_halves] at hloadu
  have whole := writeDest_wrote t rd k
  have hz := whole.zflag
  rw [if_neg hzero] at hz
  exact ⟨_, _, t, _, if_neg hip, hload, hloadu, whole.dest hzero hflag, hz,
    sameRegsBut_trans low.regs whole.regs⟩

end Sys2Proof.Machine

/-! PROOFS. The statements about arithmetic (`41_arithmetic.md`): the placement of a result, `add`, `sub`,
`mul`, `div` and `idiv` on the integer types, and the five on the floating-point types. -/

namespace Sys2Proof.Machine

/-! ## Placement -/

/-- A signed 32-bit result is sign-extended (rule R127). -/
theorem placeResult_hs_toInt (r : Half) : (placeResult .hs r).toInt = r.toInt :=
  BitVec.toInt_signExtend_of_le (by decide)

/-- A result of the types without sign extension is zero-extended (rule R127). -/
theorem placeResult_of_ne_hs (dt : DType) (r : BitVec (typeWidth dt)) (h : dt ≠ .hs) :
    placeResult dt r = r.setWidth 64 := by
  cases dt with
  | hs => exact absurd rfl h
  | _ => rfl

/-- A double fills the destination (rule R127). -/
theorem placeResult_d (r : Word) : placeResult .d r = r :=
  (placeResult_of_ne_hs .d r (by decide)).trans (BitVec.setWidth_eq r)

/-- Settles O16: a zero-extension of a 32-bit result keeps its unsigned number, the sign-extension of `hs`
its signed number, and 64 bits have nothing to extend. -/
theorem placementByType : Obligations.PlacementByType := by
  refine ⟨fun r => ⟨?_, ?_, placeResult_hs_toInt r⟩, fun r =>
    ⟨(placeResult_of_ne_hs .u r (by decide)).trans (BitVec.setWidth_eq r),
      (placeResult_of_ne_hs .s r (by decide)).trans (BitVec.setWidth_eq r), placeResult_d r⟩⟩
  · rw [placeResult_of_ne_hs .hu r (by decide)]
    exact setWidth_half_toNat r
  · rw [placeResult_of_ne_hs .f r (by decide)]
    exact setWidth_half_toNat r

/-! ## The common form -/

section CommonForm
variable (s : State) (c : Cond) (dt : DType) (rd rs : Reg) (v : Value) (b : BitVec (typeWidth dt))

/-- The common form whose operation answers is a destination write of the answer (rule R120). -/
theorem conditional_arith_ok (op : ArithOp) (r : Word) (hp : s.Passes c) (hv : s.valT v dt = .ok b)
    (hr : op dt (s.regT rs dt) b = .ok r) :
    s.conditional c (s.conclude (s.arith op dt rd rs v)) = .next (s.writeDest rd r) := by
  rw [conditional_pass s c _ hp, (arith_ok s _ op dt rd rs v).mpr ⟨b, r, hv, hr, rfl⟩, conclude_ok]

/-- The common form whose operation faults takes the fault and writes nothing (rules R301, R305). -/
theorem conditional_arith_error (op : ArithOp) (e : FaultReason) (hp : s.Passes c)
    (hv : s.valT v dt = .ok b) (he : op dt (s.regT rs dt) b = .error e) :
    s.conditional c (s.conclude (s.arith op dt rd rs v)) = .next (s.raise e) := by
  rw [conditional_pass s c _ hp, (arith_error s op dt rd rs v e).mpr (.inr ⟨b, hv, he⟩), conclude_error]

/-- `add` with its operand read writes the placed sum (rules R122, R127). -/
theorem exec_add (hp : s.Passes c) (hv : s.valT v dt = .ok b) :
    exec (.add c dt rd rs v) s =
      .next (s.writeDest rd (placeResult dt (addOp dt (s.regT rs dt) b))) :=
  conditional_arith_ok s c dt rd rs v b (placed addOp) _ hp hv rfl

/-- `sub` with its operand read writes the placed difference (rules R123, R127). -/
theorem exec_sub (hp : s.Passes c) (hv : s.valT v dt = .ok b) :
    exec (.sub c dt rd rs v) s =
      .next (s.writeDest rd (placeResult dt (subOp dt (s.regT rs dt) b))) :=
  conditional_arith_ok s c dt rd rs v b (placed subOp) _ hp hv rfl

/-- `mul` with its operand read writes the placed product (rules R124, R127). -/
theorem exec_mul (hp : s.Passes c) (hv : s.valT v dt = .ok b) :
    exec (.mul c dt rd rs v) s =
      .next (s.writeDest rd (placeResult dt (mulOp dt (s.regT rs dt) b))) :=
  conditional_arith_ok s c dt rd rs v b (placed mulOp) _ hp hv rfl

/-- `div` with its operand read writes what its quotient answers (rule R125). -/
theorem exec_div (r : Word) (hp : s.Passes c) (hv : s.valT v dt = .ok b)
    (hr : divOp s.cfg.intDiv dt (s.regT rs dt) b = .ok r) :
    exec (.div c dt rd rs v) s = .next (s.writeDest rd r) :=
  conditional_arith_ok s c dt rd rs v b (divOp s.cfg.intDiv) r hp hv hr

/-- `idiv` with its operand read writes what its quotient answers (rule R126). -/
theorem exec_idiv (r : Word) (hp : s.Passes c) (hv : s.valT v dt = .ok b)
    (hr : idivOp dt (s.regT rs dt) b = .ok r) :
    exec (.idiv c dt rd rs v) s = .next (s.writeDest rd r) :=
  conditional_arith_ok s c dt rd rs v b idivOp r hp hv hr

end CommonForm

/-! ## Sum, difference and product of integers -/

/-- The integer types are the unsigned ones and the signed ones (rule R121). -/
theorem isInteger_iff {dt : DType} : IsInteger dt ↔ (dt = .hu ∨ dt = .u) ∨ dt = .hs ∨ dt = .s := by
  cases dt <;> simp [IsInteger]

section Integers
variable {dt : DType} (a b : BitVec (typeWidth dt))

/-- The sum on an integer type is the exact sum modulo `2^W` (rules R121, R122). -/
theorem addOp_integer (h : IsInteger dt) : addOp dt a b = BitVec.ofInt _ (a.toInt + b.toInt) := by
  have plain : addOp dt a b = a + b := by
    rcases isInteger_iff.mp h with (rfl | rfl) | rfl | rfl <;> rfl
  rw [plain, BitVec.ofInt_add, BitVec.ofInt_toInt, BitVec.ofInt_toInt]

/-- The difference on an integer type is the exact difference modulo `2^W` (rules R121, R123). -/
theorem subOp_integer (h : IsInteger dt) : subOp dt a b = BitVec.ofInt _ (a.toInt - b.toInt) := by
  have plain : subOp dt a b = a - b := by
    rcases isInteger_iff.mp h with (rfl | rfl) | rfl | rfl <;> rfl
  rw [plain, Int.sub_eq_add_neg, BitVec.ofInt_add, BitVec.ofInt_neg, BitVec.ofInt_toInt,
    BitVec.ofInt_toInt, BitVec.sub_eq_add_neg]

/-- The product on an integer type is the exact product modulo `2^W` (rules R121, R124). -/
theorem mulOp_integer (h : IsInteger dt) : mulOp dt a b = BitVec.ofInt _ (a.toInt * b.toInt) := by
  have plain : mulOp dt a b = a * b := by
    rcases isInteger_iff.mp h with (rfl | rfl) | rfl | rfl <;> rfl
  rw [plain, BitVec.ofInt_mul, BitVec.ofInt_toInt, BitVec.ofInt_toInt]

end Integers

/-- Settles O21: the three instructions are destination writes of operations exact modulo `2^W`. -/
theorem integerAddSubMul : Obligations.IntegerAddSubMul := by
  intro s c dt rd rs v b hp hi hv
  rw [← addOp_integer _ _ hi, ← subOp_integer _ _ hi, ← mulOp_integer _ _ hi]
  exact ⟨⟨_, exec_add s c dt rd rs v b hp hv, writeDest_wrote s rd _⟩,
    ⟨_, exec_sub s c dt rd rs v b hp hv, writeDest_wrote s rd _⟩,
    ⟨_, exec_mul s c dt rd rs v b hp hv, writeDest_wrote s rd _⟩⟩

/-! ## Quotients of integers -/

/-- The floor of a rational quotient of integers is their floor division. -/
theorem floor_intCast_div_intCast (a b : Int) : ⌊(a : ℚ) / (b : ℚ)⌋ = a.fdiv b := by
  have nonneg : ∀ (a : Int) (n : Nat), ⌊(a : ℚ) / ((n : Int) : ℚ)⌋ = a.fdiv n := fun a n => by
    rw [Int.cast_natCast, Rat.floor_intCast_div_natCast, Int.fdiv_eq_ediv_of_nonneg a (by omega)]
  obtain ⟨n, rfl | rfl⟩ := b.eq_nat_or_neg
  · exact nonneg a n
  · rw [← Int.neg_fdiv_neg, neg_neg, ← nonneg, Int.cast_neg, Int.cast_neg, div_neg, neg_div]

/-- A quotient that is not negative is truncated to its floor. -/
theorem tdiv_eq_floor (a b : Int) (h : 0 ≤ (a : ℚ) / (b : ℚ)) : a.tdiv b = ⌊(a : ℚ) / (b : ℚ)⌋ := by
  rw [floor_intCast_div_intCast]
  rcases div_nonneg_iff.mp h with ⟨ha, hb⟩ | ⟨ha, hb⟩
  · exact (Int.fdiv_eq_tdiv_of_nonneg (Int.cast_nonneg_iff.mp ha) (Int.cast_nonneg_iff.mp hb)).symm
  · have ha' : a ≤ 0 := Int.cast_nonpos.mp ha
    have hb' : b ≤ 0 := Int.cast_nonpos.mp hb
    rw [← Int.neg_fdiv_neg, ← Int.neg_tdiv_neg, Int.fdiv_eq_tdiv_of_nonneg (by omega) (by omega)]

/-- A quotient that is not positive is truncated to its ceiling. -/
theorem tdiv_eq_ceil (a b : Int) (h : (a : ℚ) / (b : ℚ) ≤ 0) : a.tdiv b = ⌈(a : ℚ) / (b : ℚ)⌉ := by
  have hneg : ((-a : Int) : ℚ) / (b : ℚ) = -((a : ℚ) / (b : ℚ)) := by rw [Int.cast_neg, neg_div]
  have hfloor := tdiv_eq_floor (-a) b (by rw [hneg]; exact neg_nonneg.mpr h)
  rw [hneg, Int.floor_neg, Int.neg_tdiv] at hfloor
  exact neg_injective hfloor

/-- The unsigned quotient is the floor of the exact quotient (rule R125). -/
theorem unsignedQuotient_eq {w : Nat} (a b : BitVec w) :
    unsignedQuotient a b = BitVec.ofInt w ⌊(a.toNat : ℚ) / (b.toNat : ℚ)⌋ := by
  rw [Rat.floor_natCast_div_natCast, ← Int.natCast_ediv, BitVec.ofInt_natCast, unsignedQuotient]

/-- The signed quotient under floor is the floor of the exact quotient modulo `2^W` (rules R125, R129). -/
theorem signedQuotient_floor_eq {w : Nat} (a b : BitVec w) :
    signedQuotient .floor a b = BitVec.ofInt w ⌊(a.toInt : ℚ) / (b.toInt : ℚ)⌋ := by
  rw [floor_intCast_div_intCast, signedQuotient]

section Quotients
variable {dt : DType} (mode : IntDiv) (a b : BitVec (typeWidth dt))

/-- On the integer types `idiv` is `div` rounding to the floor (rule R126). -/
theorem idivOp_integer (h : IsInteger dt) : idivOp dt a b = divOp .floor dt a b := by
  rcases isInteger_iff.mp h with (rfl | rfl) | rfl | rfl <;> rfl

/-- A zero divisor of an integer division faults under every rounding (rule R128). -/
theorem divOp_zero (h : IsInteger dt) : divOp mode dt a 0 = .error .divideByZero := by
  rcases isInteger_iff.mp h with (rfl | rfl) | rfl | rfl <;> rfl

/-- A nonzero divisor leaves the quotient as it is (rule R128). -/
theorem checkedQuotient_of_ne_zero {w : Nat} (b q : BitVec w) (h : b ≠ 0) : checkedQuotient b q = .ok q :=
  if_neg h

/-- A division on an unsigned type places the unsigned quotient (rules R125, R127). -/
theorem divOp_unsigned (h : dt = .hu ∨ dt = .u) (hb : b ≠ 0) :
    divOp mode dt a b = .ok (placeResult dt (unsignedQuotient a b)) := by
  have hq := checkedQuotient_of_ne_zero b (unsignedQuotient a b) hb
  rcases h with rfl | rfl <;> exact congrArg (Except.map _) hq

/-- A division on a signed type places the signed quotient (rules R125, R127). -/
theorem divOp_signed (h : dt = .hs ∨ dt = .s) (hb : b ≠ 0) :
    divOp mode dt a b = .ok (placeResult dt (signedQuotient mode a b)) := by
  have hq := checkedQuotient_of_ne_zero b (signedQuotient mode a b) hb
  rcases h with rfl | rfl <;> exact congrArg (Except.map _) hq

end Quotients

/-- Settles O22: an unsigned quotient is the same under every rounding, so `div` and `idiv` agree. -/
theorem unsignedDivision : Obligations.UnsignedDivision := by
  intro s c dt rd rs v b hp hdt hv hb
  have hq := fun mode => divOp_unsigned mode (s.regT rs dt) b hdt hb
  rw [← unsignedQuotient_eq]
  exact ⟨_, exec_div s c dt rd rs v b _ hp hv (hq _),
    exec_idiv s c dt rd rs v b _ hp hv
      ((idivOp_integer _ b (isInteger_iff.mpr (.inl hdt))).trans (hq .floor)),
    writeDest_wrote s rd _⟩

/-- Settles O23: the quotient is the floor division of the signed numbers. -/
theorem signedFloorDivision : Obligations.SignedFloorDivision := by
  intro s c dt rd rs v b hp hdt hv hb
  have hq := divOp_signed .floor (s.regT rs dt) b hdt hb
  rw [← signedQuotient_floor_eq]
  exact ⟨_, exec_idiv s c dt rd rs v b _ hp hv
      ((idivOp_integer _ b (isInteger_iff.mpr (.inr hdt))).trans hq),
    fun hmode => exec_div s c dt rd rs v b _ hp hv (by rw [hmode]; exact hq),
    writeDest_wrote s rd _⟩

/-- Settles O24: the quotient is the truncating division of the signed numbers, which is the floor or the
ceiling of the exact quotient by its sign. -/
theorem signedTruncatingDivision : Obligations.SignedTruncatingDivision := by
  intro s c dt rd rs v b hp hdt hv hb hmode
  have hq := divOp_signed .truncate (s.regT rs dt) b hdt hb
  rw [← hmode] at hq
  refine ⟨_, _, exec_div s c dt rd rs v b _ hp hv hq, ?_, tdiv_eq_floor _ _,
    fun hneg => tdiv_eq_ceil _ _ hneg.le⟩
  rw [hmode]
  exact writeDest_wrote s rd _

/-- Settles O25: the zero test comes before either quotient. -/
theorem divisionByZeroFaults : Obligations.DivisionByZeroFaults := by
  intro s c dt rd rs v hp hi hv
  have hzero := fun mode => divOp_zero mode (s.regT rs dt) hi
  exact ⟨_, conditional_arith_error s c dt rd rs v 0 (divOp s.cfg.intDiv) _ hp hv (hzero _),
    conditional_arith_error s c dt rd rs v 0 idivOp _ hp hv
      ((idivOp_integer _ 0 hi).trans (hzero .floor)),
    raise_took s _⟩

/-! ## The floating-point types -/

/-- A register under the float type is its low half (rule R81). -/
theorem regT_f (s : State) (r : Reg) : s.regT r .f = (s.readReg r).extractLsb' 0 32 :=
  BitVec.setWidth_eq_extractLsb' (by decide)

/-- A register under the double type is the whole register (rule R81). -/
theorem regT_d (s : State) (r : Reg) : s.regT r .d = s.readReg r := BitVec.setWidth_eq _

/-- A register operand under the double type is the whole register (rule R81). -/
theorem valT_reg_d (s : State) (r : Reg) : s.valT (.reg r) .d = .ok (s.readReg r) :=
  (valT_of_full s (.reg r) _ .d rfl).trans (congrArg Except.ok (BitVec.setWidth_eq _))

/-- Settles O26: each instruction is a destination write of its function of the low half and the
operand, with no test of the divisor. -/
theorem floatArithmetic : Obligations.FloatArithmetic := by
  intro s c rd rs v b hp hv
  rw [← regT_f]
  exact ⟨⟨_, exec_add s c .f rd rs v b hp hv, writeDest_wrote s rd _⟩,
    ⟨_, exec_sub s c .f rd rs v b hp hv, writeDest_wrote s rd _⟩,
    ⟨_, exec_mul s c .f rd rs v b hp hv, writeDest_wrote s rd _⟩,
    ⟨_, exec_div s c .f rd rs v b _ hp hv rfl, writeDest_wrote s rd _⟩,
    ⟨_, exec_idiv s c .f rd rs v b _ hp hv rfl, writeDest_wrote s rd _⟩⟩

/-- Settles O27: each instruction is a destination write of its function of the two whole registers. -/
theorem doubleArithmetic : Obligations.DoubleArithmetic := by
  intro s c rd rs rv hp
  have hv := valT_reg_d s rv
  have wrote : ∀ x : Word, WroteDest s (s.writeDest rd (placeResult .d x)) rd x := fun x => by
    rw [placeResult_d]
    exact writeDest_wrote s rd x
  rw [← regT_d s rs]
  exact ⟨⟨_, exec_add s c .d rd rs _ _ hp hv, wrote _⟩,
    ⟨_, exec_sub s c .d rd rs _ _ hp hv, wrote _⟩,
    ⟨_, exec_mul s c .d rd rs _ _ hp hv, wrote _⟩,
    ⟨_, exec_div s c .d rd rs _ _ _ hp hv rfl, wrote _⟩,
    ⟨_, exec_idiv s c .d rd rs _ _ _ hp hv rfl, writeDest_wrote s rd _⟩⟩

end Sys2Proof.Machine

/-! PROOFS. The statements about branching (`42_branching.md`): what `cmp` leaves in `$flag` and its frame,
its code on the floating-point types, and `load` to `$ip` as a jump. -/

namespace Sys2Proof.Machine

/-! ## The state after a comparison -/

/-- The state after `cmp` found the relation `ρ`, with `z` for `Z` (rules R150 to R152). -/
def State.compared (s : State) (ρ : Relation) (z : Bool) : State :=
  s.writeReg .flag (withZ (withCmp (s.readReg .flag) (relationCode ρ)) z)

section Compared
variable (s : State) (ρ : Relation) (z : Bool)

theorem compared_flag :
    (s.compared ρ z).readReg .flag = withZ (withCmp (s.readReg .flag) (relationCode ρ)) z :=
  readReg_writeReg_self s .flag _ nofun

/-- The comparison bits hold the code of the relation (rule R151). -/
theorem flagCmp_compared : flagCmp ((s.compared ρ z).readReg .flag) = relationCode ρ := by
  rw [compared_flag, flagCmp_withZ, flagCmp_withCmp]

theorem flagZ_compared : flagZ ((s.compared ρ z).readReg .flag) = z := by
  rw [compared_flag, flagZ_withZ]

/-- A comparison keeps bits 63:4 of `$flag` (rule R150). -/
theorem compared_flag_bit (i : Nat) (h : 4 ≤ i) :
    ((s.compared ρ z).readReg .flag).getLsbD i = (s.readReg .flag).getLsbD i := by
  rw [compared_flag, withZ_bit, if_neg (by omega), withCmp_bit, if_neg (by omega)]

/-- A comparison touches no register but `$flag` (rule R150). -/
theorem compared_sameRegsBut : SameRegsBut [.flag] s (s.compared ρ z) := fun r hr =>
  readReg_writeReg_of_ne s .flag r _ (List.mem_singleton.not.mp hr)

theorem compared_sameMem : SameMem s (s.compared ρ z) := fun a => writeReg_byteAt s .flag _ a

theorem compared_sameHost : SameHost s (s.compared ρ z) :=
  ⟨writeReg_output .., writeReg_input .., writeReg_cfg ..⟩

theorem compared_lastFault : (s.compared ρ z).lastFault = s.lastFault := writeReg_lastFault ..

end Compared

/-- A `cmp` whose operand is read writes the code of their relation, and `Z` from the operand alone
(rules R150, R152). -/
theorem exec_cmp (s : State) (c : Cond) (dt : DType) (rs : Reg) (v : Value) (b : BitVec (typeWidth dt))
    (hp : s.Passes c) (hv : s.valT v dt = .ok b) :
    exec (.cmp c dt rs v) s = .next (s.compared (relation dt (s.regT rs dt) b) (b == 0)) := by
  change s.conditional c (s.conclude (s.valT v dt >>= fun b =>
    pure (s.compared (relation dt (s.regT rs dt) b) (b == 0)))) = _
  rw [conditional_pass s c _ hp, hv]
  rfl

/-! ## The code of a relation -/

/-- The code of the unsigned order of two values (rule R151). -/
theorem relationCode_unsignedRelation {w : Nat} (a b : BitVec w) :
    relationCode (unsignedRelation a b) =
      if a.toNat < b.toNat then 0b010 else if a.toNat = b.toNat then 0b001 else 0b110 := by
  rw [unsignedRelation, apply_ite relationCode, apply_ite relationCode]
  rfl

/-- The code of the signed order of two values (rule R151). -/
theorem relationCode_signedRelation {w : Nat} (a b : BitVec w) :
    relationCode (signedRelation a b) =
      if a.toInt < b.toInt then 0b010 else if a.toInt = b.toInt then 0b001 else 0b110 := by
  rw [signedRelation, apply_ite relationCode, apply_ite relationCode]
  rfl

/-- A value is all zeros exactly when its number is 0. -/
theorem beq_zero_eq_decide_toNat {w : Nat} (b : BitVec w) : (b == 0) = decide (b.toNat = 0) := by
  rw [beq_eq_decide]
  exact decide_eq_decide.mpr BitVec.toNat_eq

/-- Settles O28: the code is that of the order of the type, unsigned or signed, and the rest is the state
after a comparison. -/
theorem compareResult : Obligations.CompareResult := by
  intro s c dt rs v b hp hv
  refine ⟨_, exec_cmp s c dt rs v b hp hv, fun hdt => ?unsigned, fun hdt => ?signed, ?zero,
    compared_flag_bit s _ _, compared_sameRegsBut s _ _, compared_sameMem s _ _,
    compared_sameHost s _ _, compared_lastFault s _ _⟩
  case unsigned =>
    rw [flagCmp_compared, ← relationCode_unsignedRelation]
    rcases hdt with rfl | rfl <;> rfl
  case signed =>
    rw [flagCmp_compared, ← relationCode_signedRelation]
    rcases hdt with rfl | rfl <;> rfl
  case zero => rw [flagZ_compared, beq_zero_eq_decide_toNat]

/-- Settles O29: under `f` the operands are the low half and the operand read, under `d` two whole
registers, and the code is that of whatever relation `FCMP` gives. -/
theorem floatCompareCode : Obligations.FloatCompareCode := by
  intro s c rs v hp
  refine ⟨fun b hv => ⟨_, exec_cmp s c .f rs v b hp hv, ?_⟩, ?_⟩
  · rw [flagCmp_compared, ← regT_f]
    rfl
  · rintro rv rfl
    refine ⟨_, exec_cmp s c .d rs _ _ hp (valT_reg_d s rv), ?_⟩
    rw [flagCmp_compared, regT_d]
    rfl

/-! ## The jump -/

/-- A destination write to a register other than `$flag` does not halt the machine (rules R16, R18). -/
theorem halted_iff_of_wroteDest {s t : State} {rd : Reg} {v : Word} (hw : WroteDest s t rd v)
    (hrd : rd ≠ .flag) : t.Halted ↔ s.Halted := by
  have run := hw.flags 4 (by decide)
  rw [if_neg hrd] at run
  rw [State.Halted, State.Halted, flagRun, flagRun, run]

/-- Settles O56: the jump is a destination write, which checks no range; the next fetch does. -/
theorem loadToIpJumps : Obligations.LoadToIpJumps := by
  intro s c v target hp hrun hv
  obtain ⟨t, hexec, wrote⟩ := loadResult s c .ip v target hp hv
  have hip : t.readReg .ip = target := wrote.dest nofun nofun
  have hrun' : ¬ t.Halted := mt (halted_iff_of_wroteDest wrote nofun).mp hrun
  refine ⟨t, hexec, hip, wrote.zflag, hrun', fun hout => ?_⟩
  obtain ⟨-, -, hcfg⟩ := wrote.host
  rw [← hip]
  refine fetchOutOfRangeFaults t hrun' ?_
  rw [State.FetchInRange, hip, hcfg]
  omega

end Sys2Proof.Machine

/-! PROOFS. The statements about the logical instructions and the shifts (`43_logical.md`): their common form,
the bits of `not`, `and`, `or` and `xor`, and the numbers of `shr` and `shl`. -/

namespace Sys2Proof.Machine

/-! ## The common form -/

/-- The common form with its operand read is a destination write of the operation's answer (rule R170). -/
theorem conditional_logical_ok (s : State) (c : Cond) (op : Word → Word → Word) (rd rs : Reg) (v : Value)
    (b : Word) (hp : s.Passes c) (hv : s.valZ v = .ok b) :
    s.conditional c (s.conclude (s.logical op rd rs v)) =
      .next (s.writeDest rd (op (s.readReg rs) b)) := by
  rw [conditional_pass s c _ hp, (logical_ok s _ op rd rs v).mpr ⟨b, hv, rfl⟩, conclude_ok]

section CommonForm
variable (s : State) (c : Cond) (rd rs : Reg) (v : Value) (b : Word)

/-- `not`, which reads no operand, writes the complement of its register (rule R171). -/
theorem exec_not (hp : s.Passes c) :
    exec (.not c rd rs) s = .next (s.writeDest rd (~~~s.readReg rs)) := by
  rw [← BitVec.xor_allOnes]
  exact conditional_pass s c _ hp

/-- `and` with its operand read writes the conjunction (rule R172). -/
theorem exec_and (hp : s.Passes c) (hv : s.valZ v = .ok b) :
    exec (.and c rd rs v) s = .next (s.writeDest rd (s.readReg rs &&& b)) :=
  conditional_logical_ok s c (· &&& ·) rd rs v b hp hv

/-- `or` with its operand read writes the disjunction (rule R173). -/
theorem exec_or (hp : s.Passes c) (hv : s.valZ v = .ok b) :
    exec (.or c rd rs v) s = .next (s.writeDest rd (s.readReg rs ||| b)) :=
  conditional_logical_ok s c (· ||| ·) rd rs v b hp hv

/-- `xor` with its operand read writes the exclusive disjunction (rule R174). -/
theorem exec_xor (hp : s.Passes c) (hv : s.valZ v = .ok b) :
    exec (.xor c rd rs v) s = .next (s.writeDest rd (s.readReg rs ^^^ b)) :=
  conditional_logical_ok s c (· ^^^ ·) rd rs v b hp hv

/-- `shr` with its operand read writes the right shift by it (rule R175). -/
theorem exec_shr (hp : s.Passes c) (hv : s.valZ v = .ok b) :
    exec (.shr c rd rs v) s = .next (s.writeDest rd (shiftRight (s.readReg rs) b)) :=
  conditional_logical_ok s c shiftRight rd rs v b hp hv

/-- `shl` with its operand read writes the left shift by it (rule R176). -/
theorem exec_shl (hp : s.Passes c) (hv : s.valZ v = .ok b) :
    exec (.shl c rd rs v) s = .next (s.writeDest rd (shiftLeft (s.readReg rs) b)) :=
  conditional_logical_ok s c shiftLeft rd rs v b hp hv

end CommonForm

/-! ## Bit by bit -/

/-- Settles O30: the four instructions are destination writes of the bitwise operations on words. -/
theorem bitwiseResults : Obligations.BitwiseResults := by
  refine ⟨fun s c rd rs hp => ?not, fun s c rd rs v b hp hv => ⟨?and, ?or, ?xor⟩⟩
  case not =>
    refine ⟨_, _, exec_not s c rd rs hp, writeDest_wrote s rd _, fun i hi => ?_⟩
    rw [BitVec.getLsbD_not, decide_eq_true hi, Bool.true_and]
  case and =>
    exact ⟨_, _, exec_and s c rd rs v b hp hv, writeDest_wrote s rd _, fun i => BitVec.getLsbD_and⟩
  case or =>
    exact ⟨_, _, exec_or s c rd rs v b hp hv, writeDest_wrote s rd _, fun i => BitVec.getLsbD_or⟩
  case xor =>
    exact ⟨_, _, exec_xor s c rd rs v b hp hv, writeDest_wrote s rd _, fun i => BitVec.getLsbD_xor⟩

/-! ## Shifts -/

section Shifts
variable (a b : Word)

/-- A right shift by 64 or more gives 0 (rule R175). -/
theorem shiftRight_of_le (h : 64 ≤ b.toNat) : shiftRight a b = 0 := if_pos h

/-- A left shift by 64 or more gives 0 (rule R176). -/
theorem shiftLeft_of_le (h : 64 ≤ b.toNat) : shiftLeft a b = 0 := if_pos h

/-- A right shift by any amount is the quotient by the power of two: from 64 on, the power exceeds every
word (rule R175). -/
theorem shiftRight_toNat : (shiftRight a b).toNat = a.toNat / 2 ^ b.toNat := by
  by_cases h : 64 ≤ b.toNat
  · have hlt : a.toNat < 2 ^ b.toNat := a.isLt.trans_le (Nat.pow_le_pow_right (by decide) h)
    rw [shiftRight_of_le a b h, Nat.div_eq_of_lt hlt]
    rfl
  · have hlt : a.toNat / 2 ^ b.toNat < 2 ^ 64 := (Nat.div_le_self _ _).trans_lt a.isLt
    rw [shiftRight, if_neg h, BitVec.toNat_ofNat, Nat.mod_eq_of_lt hlt]

/-- A left shift by any amount is the product by the power of two modulo `2^64`: from 64 on, the power is a
multiple of the modulus (rule R176). -/
theorem shiftLeft_toNat : (shiftLeft a b).toNat = a.toNat * 2 ^ b.toNat % 2 ^ 64 := by
  by_cases h : 64 ≤ b.toNat
  · have hdvd : 2 ^ 64 ∣ a.toNat * 2 ^ b.toNat := (Nat.pow_dvd_pow 2 h).mul_left _
    rw [shiftLeft_of_le a b h, Nat.mod_eq_zero_of_dvd hdvd]
    rfl
  · rw [shiftLeft, if_neg h, BitVec.toNat_ofNat]

end Shifts

/-- Settles O31: the two instructions are destination writes of the shifts, which are quotient and product
at every amount. -/
theorem shiftResults : Obligations.ShiftResults := by
  intro s c rd rs v b hp hv
  exact ⟨⟨_, _, exec_shr s c rd rs v b hp hv, writeDest_wrote s rd _,
      shiftRight_toNat _ b, shiftRight_of_le _ b⟩,
    ⟨_, _, exec_shl s c rd rs v b hp hv, writeDest_wrote s rd _,
      shiftLeft_toNat _ b, shiftLeft_of_le _ b⟩⟩

end Sys2Proof.Machine

/-! PROOFS. The statements about the stack (`44_stack.md`): the result of `push` with its frame, and the
lines `pushl` and `popl`, which undo each other. -/

namespace Sys2Proof.Machine

/-! ## A push -/

/-- A `push` whose operand is read concludes with the write of its low half, then of `$sp` (rule R190). -/
theorem exec_push_eq (s : State) (c : Cond) (v : Value) (b : Word) (hp : s.Passes c)
    (hv : s.valZ v = .ok b) :
    exec (.push c v) s = s.conclude ((s.memWrite (s.readReg .sp) 4 b).map
      (·.writeReg .sp (s.readReg .sp + 4))) := by
  change s.conditional c (s.conclude (s.valZ v >>= fun b =>
    (s.memWrite (s.readReg .sp) 4 b).map (·.writeReg .sp (s.readReg .sp + 4)))) = _
  rw [conditional_pass s c _ hp, hv]
  rfl

/-- Settles O32: a `push` in range is one write of four bytes and one write of `$sp`. -/
theorem pushResult : Obligations.PushResult := by
  refine fun s c v b hp hm hv => ⟨fun hr => ?_, fun hr => ?_⟩
  · have hw := (memWrite_ok s _ (s.readReg .sp) 4 b).mpr ⟨hr, rfl⟩
    rw [exec_push_eq s c v b hp hv, hw]
    refine ⟨_, rfl, fun k hk => ?_, fun a ha => ?_,
      readReg_writeReg_self _ .sp _ (by decide), fun q hq => ?_,
      ⟨writeReg_output .., writeReg_input .., writeReg_cfg ..⟩, writeReg_lastFault ..⟩
    · rw [writeReg_byteAt, memWrite_byteAt s _ _ 4 b hm.1 hw, if_pos (by omega), Nat.add_sub_cancel_left]
    · rw [writeReg_byteAt, memWrite_sameMemBut s _ _ 4 b hm.1 hw a ha]
    · rw [readReg_writeReg_of_ne _ _ q _ (List.ne_of_not_mem_cons hq), memWrite_readReg s _ _ 4 b q hw]
  · rw [exec_push_eq s c v b hp hv, memWrite_error s _ 4 b (by omega)]
    exact ⟨_, rfl, raise_took s _⟩

/-! ## The pair of `pushl` -/

/-- A range that ends inside memory does not wrap at `2^64` (rules R41, R42). -/
theorem toNat_add_of_inRange (s : State) (a : Word) (k n : Nat) (hsize : s.cfg.memSize ≤ 2 ^ 64)
    (hr : a.toNat + n ≤ s.cfg.memSize) (hk : k < n) : (a + BitVec.ofNat 64 k).toNat = a.toNat + k := by
  rw [BitVec.toNat_add, BitVec.toNat_ofNat]
  omega

/-- The halves of a constant, pushed low half first, stand in memory as the constant (rule R191). -/
theorem pushl_pushes (s : State) (k : Word) (hm : s.MemOk) (hsize : s.cfg.memSize ≤ 2 ^ 64)
    (hr : (s.readReg .sp).toNat + 8 ≤ s.cfg.memSize) :
    ∃ t u, exec (.push .always (.imm (lowHalf k))) s = .next t ∧
      exec (.push .always (.imm (highHalf k))) t = .next u ∧ u.memRead (s.readReg .sp) 8 = .ok k ∧
      u.readReg .sp = s.readReg .sp + 8 ∧ u.cfg = s.cfg := by
  obtain ⟨t, hpush, hlow, -, hsp, -, hhost, -⟩ :=
    (pushResult s .always _ _ (passes_always s) hm (valZ_imm s (lowHalf k))).1 (by omega)
  have haddr : (t.readReg .sp).toNat = (s.readReg .sp).toNat + 4 := by
    rw [hsp]
    exact toNat_add_of_inRange s _ 4 8 hsize hr (by decide)
  have hcfg : t.cfg = s.cfg := hhost.2.2
  obtain ⟨u, hpush', hhigh, hkept, hsp', -, hhost', -⟩ :=
    (pushResult t .always _ _ (passes_always t) (exec_memOk _ s t hpush hm) (valZ_imm t (highHalf k))).1
      (by rw [haddr, hcfg]; omega)
  have hcfg' : u.cfg = s.cfg := hhost'.2.2.trans hcfg
  refine ⟨t, u, hpush, hpush', memRead_of_bytes u _ 8 k (by rwa [hcfg']) fun j hj => ?_, ?_, hcfg'⟩
  · by_cases hj4 : j < 4
    · rw [hkept _ (by omega), hlow j hj4, setWidth_half_extract _ _ _ (by omega), lowHalf,
        extract_extract _ _ _ _ _ (by omega), Nat.zero_add]
    · obtain ⟨i, rfl⟩ := Nat.exists_eq_add_of_le (Nat.le_of_not_lt hj4)
      rw [← Nat.add_assoc, ← haddr, hhigh i (by omega), setWidth_half_extract _ _ _ (by omega), highHalf,
        extract_extract _ _ _ _ _ (by omega), Nat.mul_add]
  · rw [hsp', hsp, BitVec.add_assoc]
    rfl

/-! ## The lines of `popl` -/

/-- An unsigned word fills the destination (rule R127). -/
theorem placeResult_u (r : Word) : placeResult .u r = r :=
  (placeResult_of_ne_hs .u r (by decide)).trans (BitVec.setWidth_eq r)

/-- A register operand of type `u` is the whole register (rule R81). -/
theorem regT_u (s : State) (r : Reg) : s.regT r .u = s.readReg r := BitVec.setWidth_eq _

/-- Lowering `$sp` is a destination write of the difference (rules R123, R192). -/
theorem exec_lowerSp (s : State) (c : Cond) (n : Half) (hp : s.Passes c) :
    exec (lowerSp c n) s = .next (s.writeDest .sp (s.readReg .sp - n.setWidth 64)) := by
  have hdiff : placeResult .u (subOp .u (s.regT .sp .u) (n.setWidth 64)) =
      s.readReg .sp - n.setWidth 64 :=
    (placeResult_u _).trans (congrArg (· - n.setWidth 64) (regT_u s .sp))
  rw [← hdiff]
  exact exec_sub s c .u .sp .sp (.imm n) _ hp rfl

/-- A destination write changes nothing that a read of memory sees. -/
theorem writeDest_memRead (s : State) (rd : Reg) (v a : Word) (n : Nat) :
    (s.writeDest rd v).memRead a n = s.memRead a n := by
  simp [State.memRead, State.inRange]

/-- A part of a value that can be read reads alone at its offset (rule R45). -/
theorem memRead_part (s : State) (a : Word) (m : Nat) (v : BitVec (8 * m))
    (hsize : s.cfg.memSize ≤ 2 ^ 64) (h : s.memRead a m = .ok v) (k n : Nat) (hn : 0 < n)
    (hkn : k + n ≤ m) :
    s.memRead (a + BitVec.ofNat 64 k) n = .ok (v.extractLsb' (8 * k) (8 * n)) := by
  obtain ⟨hr, -⟩ := (memRead_ok ..).mp h
  have haddr := toNat_add_of_inRange s a k m hsize hr (by omega)
  refine memRead_of_bytes s _ n _ (by omega) fun j hj => ?_
  rw [haddr, extract_extract _ _ _ _ _ (by omega), ← Nat.mul_add, memRead_byte s a m v h _ (by omega),
    Nat.add_assoc]

/-- An operand in register indirect mode is the four bytes at its address, zero-extended (rules R70,
R71). -/
theorem valZ_ind (s : State) (r : Reg) (n : BitVec 24) (b : Half)
    (h : s.memRead (s.indirect r n) 4 = .ok b) : s.valZ (.ind r n) = .ok (b.setWidth 64) := by
  change ((s.memRead (s.indirect r n) 4).map OperandBits.half).map _ = _
  rw [h]
  rfl

/-- The pair of `loadl` joins the halves of the word at its address (rule R105). The first load must leave
the base register as it is. -/
theorem loadl_loads (s : State) (rd rb : Reg) (lo hi : BitVec 24) (k : Word) (hzero : rd ≠ .zero)
    (hflag : rd ≠ .flag) (hbase : rb ∉ [rd, .flag]) (hsize : s.cfg.memSize ≤ 2 ^ 64)
    (hhi : s.indirect rb hi = s.indirect rb lo + 4) (hk : s.memRead (s.indirect rb lo) 8 = .ok k) :
    ∃ t u, exec (.load .always rd (.ind rb lo)) s = .next t ∧
      exec (.loadu .always rd (.ind rb hi)) t = .next u ∧ u.readReg rd = k ∧
      SameRegsBut [rd, .flag] s u := by
  have hlow := memRead_part s _ 8 k hsize hk 0 4 (by decide) (by decide)
  have hhigh := memRead_part s _ 8 k hsize hk 4 4 (by decide) (by decide)
  rw [BitVec.add_zero] at hlow
  have hload := exec_load s .always rd _ _ (passes_always s) (valZ_ind s rb lo (lowHalf k) hlow)
  have first := writeDest_wrote s rd ((lowHalf k).setWidth 64)
  generalize ht : s.writeDest rd ((lowHalf k).setWidth 64) = t at hload first
  have haddr : t.indirect rb hi = s.indirect rb lo + 4 := by
    rw [State.indirect, first.regs rb hbase]
    exact hhi
  have hread : t.memRead (t.indirect rb hi) 4 = .ok (highHalf k) := by
    rw [haddr, ← ht, writeDest_memRead]
    exact hhigh
  have hloadu := exec_loadu t .always rd _ _ (passes_always t) (valZ_ind t rb hi _ hread)
  rw [first.dest hzero hflag, loaduWord_halves] at hloadu
  have whole := writeDest_wrote t rd k
  exact ⟨t, _, hload, hloadu, whole.dest hzero hflag, sameRegsBut_trans first.regs whole.regs⟩

/-- `popl` with a register expands to the lowering of `$sp` by 8 and the pair of `loadl` at `$sp` (rule
R193). -/
theorem expand_poplReg (cached : Option Nat) (rd : Reg) (hip : rd ≠ .ip) (hsp : rd ≠ .sp) :
    expand cached (.poplReg rd) = some ([lowerSp .always 8, .load .always rd (.ind .sp 0),
      .loadu .always rd (.ind .sp 4)], cached) := by
  have hguard : rd ≠ .sp ∧ rd ≠ .ip := ⟨hsp, hip⟩
  simp [expand, expandLoadl, hguard, offsetOf]

/-- Settles O59: `pushl` leaves the constant below `$sp`; lowering `$sp` makes it the word that the pair of
`loadl` reads. -/
theorem pushlThenPopl : Obligations.PushlThenPopl := by
  intro s cached rd k hm hsound hr hip hzero hflag hsp
  obtain ⟨t, u, hlow, hhigh, hword, htop, hcfg⟩ := pushl_pushes s k hm hsound.2 hr
  have hlower := exec_lowerSp u .always 8 (passes_always u)
  rw [htop, show (8 : Half).setWidth 64 = (8 : Word) from rfl, BitVec.add_sub_cancel] at hlower
  have lowered : (u.writeDest .sp (s.readReg .sp)).readReg .sp = s.readReg .sp :=
    (writeDest_wrote u .sp _).dest (by decide) (by decide)
  have hbase : Reg.sp ∉ [rd, .flag] := by simp [hsp.symm]
  obtain ⟨y, z, hload, hloadu, hdest, hregs⟩ :=
    loadl_loads (u.writeDest .sp (s.readReg .sp)) rd .sp 0 4 k hzero hflag hbase
      (by rw [writeDest_cfg, hcfg]; exact hsound.2)
      (by simp [State.indirect])
      (by rw [State.indirect, lowered, writeDest_memRead]; simpa using hword)
  exact ⟨_, _, _, _, _, t, u, _, y, z, rfl, expand_poplReg cached rd hip hsp, hlow, hhigh, hword, htop,
    hlower, hload, hloadu, hdest, (hregs .sp hbase).trans lowered⟩

end Sys2Proof.Machine

/-! PROOFS. The statements about functions (`45_functions.md`): the frame that `call` writes, what `ret` takes
from it, the two together with any callee between them, and the arguments below the frame. -/

namespace Sys2Proof.Machine

/-! ## Accesses to memory, continued -/

/-- A range check out of range is the fault of its address (rule R42). -/
theorem checkRange_error (s : State) (a : Word) (n : Nat) (h : s.cfg.memSize < a.toNat + n) :
    s.checkRange a n = .error (.memRange a.toNat) := by
  simp [State.checkRange, State.inRange, Nat.not_le_of_lt h]

/-- Writing words changes no byte outside their range. -/
theorem memory_read_writeWords_outside (ws : List Word) (m : Memory) (a b : Nat) (hm : m.wf = true)
    (hb : b < a ∨ a + 8 * ws.length ≤ b) : (m.writeWords a ws).read b = m.read b := by
  rw [memory_writeWords_eq, memory_read_writeList _ _ _ _ hm,
    dif_neg (by rw [flatMap_valueBytes_length]; omega)]

/-- After writing words, word `i` lies at `a + 8 i`, its low byte first (rules R44, R45). -/
theorem memory_read_writeWords (ws : List Word) (x : Word) (k : Nat) (hk : k < 8) :
    ∀ (m : Memory) (a i : Nat), m.wf = true → ws[i]? = some x →
      (m.writeWords a ws).read (a + 8 * i + k) = x.extractLsb' (8 * k) 8 := by
  induction ws with
  | nil => intro m a i _ hi; cases hi
  | cons w ws ih =>
    intro m a i hm hi
    have hm' := memory_writeList_wf (valueBytes 8 w) m a hm
    cases i with
    | zero =>
      cases hi
      rw [Memory.writeWords, memory_read_writeWords_outside ws _ _ _ hm' (by omega),
        memory_read_writeList _ _ _ _ hm, dif_pos (by rw [valueBytes_length]; omega), valueBytes_getElem]
      simp
    | succ i =>
      rw [Memory.writeWords, show a + 8 * (i + 1) + k = a + 8 + 8 * i + k by omega]
      exact ih _ (a + 8) i hm' hi

/-! ## The frame -/

section Frame

variable (s : State)

/-- The first word of the frame is the old `$fp` (rule R212). -/
theorem frame_fp : s.frame[0]? = some (s.readReg .fp) := rfl

/-- The second word of the frame is the return address (rule R212). -/
theorem frame_ip : s.frame[1]? = some (s.readReg .ip) := rfl

/-- The other words of the frame are `$s1` to `$s8` (rule R212). -/
theorem frame_preserved (j : Fin 8) : s.frame[j.val + 2]? = some (s.readReg (.s j)) := by
  simp [State.frame]

/-- Byte `k` of a word of the frame (rules R43, R212). -/
theorem frameWord_byte (f : Word) (off k : Nat) (hk : k < 8) :
    (s.frameWord f off).extractLsb' (8 * k) 8 = s.byteAt (f.toNat + off + k) :=
  memory_readBytes_byte s.mem 8 (f.toNat + off) k hk

end Frame

/-! ## A call -/

/-- The state after a `call` to `target` whose frame fits memory (rule R210). -/
def State.called (s : State) (target : Word) : State :=
  ((({ s with mem := s.mem.writeWords (s.readReg .sp).toNat s.frame } : State).writeReg .fp
    (s.readReg .sp)).writeReg .sp (s.readReg .sp + 80)).writeReg .ip target

section Call

variable (s : State) (c : Cond) (v : Value) (target : Word)

/-- A `call` whose target is read concludes with the check of the frame's range (rules R48, R210). -/
theorem exec_call_eq (hp : s.Passes c) (hv : s.valZ v = .ok target) :
    exec (.call c v) s =
      s.conclude ((s.checkRange (s.readReg .sp) frameSize).map fun _ => s.called target) := by
  change s.conditional c (s.conclude (s.valZ v >>= fun target =>
    (s.checkRange (s.readReg .sp) frameSize).map fun _ => s.called target)) = _
  rw [conditional_pass s c _ hp, hv]
  rfl

/-- A `call` whose frame fits memory (rule R210). -/
theorem exec_call (hp : s.Passes c) (hv : s.valZ v = .ok target)
    (hr : (s.readReg .sp).toNat + 80 ≤ s.cfg.memSize) :
    exec (.call c v) s = .next (s.called target) := by
  rw [exec_call_eq s c v target hp hv, (checkRange_ok s _ frameSize ()).mpr hr]
  rfl

/-- The registers after a `call` (rule R210). -/
theorem called_readReg (q : Reg) : (s.called target).readReg q =
    match q with
    | .ip => target
    | .sp => s.readReg .sp + 80
    | .fp => s.readReg .sp
    | q => s.readReg q := by
  cases q <;> simp [State.called, readReg_writeReg]

/-- Memory after a `call`. -/
theorem called_byteAt (a : Nat) : (s.called target).byteAt a =
    (s.mem.writeWords (s.readReg .sp).toNat s.frame).read a := by
  simp [State.called, byteAt_with_mem]

/-- After a `call`, word `i` of the frame lies at `8 i` above the old `$sp` (rule R212). -/
theorem called_frame_byte (hm : s.mem.wf = true) (i k : Nat) (x : Word) (hx : s.frame[i]? = some x)
    (hk : k < 8) :
    (s.called target).byteAt ((s.readReg .sp).toNat + 8 * i + k) = x.extractLsb' (8 * k) 8 := by
  rw [called_byteAt, memory_read_writeWords _ x k hk _ _ _ hm hx]

/-- A `call` changes no byte outside the frame (rule R212). -/
theorem called_sameMemBut (hm : s.mem.wf = true) :
    SameMemBut (s.readReg .sp).toNat 80 s (s.called target) := fun a ha => by
  rw [called_byteAt, memory_read_writeWords_outside _ _ _ _ hm (by rw [frame_length]; omega)]
  rfl

/-- A `call` changes nothing but registers and memory. -/
theorem called_rest : SameHost s (s.called target) ∧ (s.called target).lastFault = s.lastFault := by
  simp [State.called, SameHost]

end Call

/-- Settles O33: the frame is ten words written from the old `$sp` up, after one range check. -/
theorem callResult : Obligations.CallResult := by
  refine fun s c v target hp hm hv => ⟨fun hr => ?_, fun hr => ?_⟩
  · have word := called_frame_byte s target hm.1
    have reg := called_readReg s target
    refine ⟨_, exec_call s c v target hp hv hr, fun k hk => word 0 k _ (frame_fp s) hk,
      fun k hk => word 1 k _ (frame_ip s) hk, fun j k hk => ?_, called_sameMemBut s target hm.1,
      reg .fp, reg .sp, reg .ip, fun q hq => ?_, called_rest s target⟩
    · rw [Nat.add_assoc _ 16, show 16 + 8 * j.val = 8 * (j.val + 2) by omega]
      exact word _ k _ (frame_preserved s j) hk
    · rw [reg q]
      cases q <;> simp_all
  · rw [exec_call_eq s c v target hp hv, checkRange_error s _ frameSize hr]
    exact ⟨_, rfl, raise_took s _⟩

/-! ## A return -/

/-- The state after a `ret` that finds the count `n` (rule R211). -/
def State.returned (s : State) (n : Half) : State :=
  (((s.reloadPreserved (s.readReg .fp)).writeReg .ip (s.frameWord (s.readReg .fp) 8)).writeReg .sp
    (s.readReg .fp - 4 * (n.setWidth 64 + 1))).writeReg .fp (s.frameWord (s.readReg .fp) 0)

section Return

variable (s : State) (c : Cond) (n : Half)

/-- A `ret` concludes with the read of the count, then the check of the frame's range (rules R48, R211). -/
theorem exec_ret_eq (hp : s.Passes c) :
    exec (.ret c) s = s.conclude (s.memRead (s.readReg .fp - 4) 4 >>= fun n =>
      (s.checkRange (s.readReg .fp) frameSize).map fun _ => s.returned n) :=
  conditional_pass s c _ hp

/-- A `ret` whose count and frame are inside memory (rule R211). -/
theorem exec_ret (hp : s.Passes c) (hn : s.memRead (s.readReg .fp - 4) 4 = .ok n)
    (hr : (s.readReg .fp).toNat + 80 ≤ s.cfg.memSize) : exec (.ret c) s = .next (s.returned n) := by
  rw [exec_ret_eq s c hp, hn, (checkRange_ok s _ frameSize ()).mpr hr]
  rfl

/-- The registers after a `ret` (rule R211). -/
theorem returned_readReg (q : Reg) : (s.returned n).readReg q =
    match q with
    | .ip => s.frameWord (s.readReg .fp) 8
    | .sp => s.readReg .fp - 4 * (n.setWidth 64 + 1)
    | .fp => s.frameWord (s.readReg .fp) 0
    | .s j => s.frameWord (s.readReg .fp) (16 + 8 * j.val)
    | q => s.readReg q := by
  cases q <;> simp [State.returned, readReg_writeReg, reloadPreserved_readReg]

/-- A `ret` changes nothing but registers. -/
theorem returned_rest : SameMem s (s.returned n) ∧ SameHost s (s.returned n) ∧
    (s.returned n).lastFault = s.lastFault := by
  obtain ⟨hmem, hout, hin, hghost, hcfg⟩ := reloadPreserved_rest s (s.readReg .fp)
  refine ⟨fun a => ?_, ?_, ?_⟩
  · simp [State.returned, State.byteAt, hmem]
  · simp [State.returned, SameHost, hout, hin, hcfg]
  · simp [State.returned, hghost]

end Return

/-- The `$sp` below the count and `n` arguments, as a number (rule R211). -/
theorem belowArguments_toNat (f : Word) (n : Half) :
    ((f - 4 * (n.setWidth 64 + 1)).toNat : Int) = (f.toNat - 4 * ((n.toNat : Int) + 1)) % 2 ^ 64 := by
  have hn := n.isLt
  have hsize : (4 * (n.setWidth 64 + 1) : Word).toNat = 4 * (n.toNat + 1) := by
    rw [BitVec.toNat_mul, BitVec.toNat_add, setWidth_half_toNat]
    change 4 * ((n.toNat + 1) % 2 ^ 64) % 2 ^ 64 = _
    omega
  rw [BitVec.toNat_sub, hsize]
  omega

/-- Settles O34: `ret` reads the count, checks the frame, and only then writes registers. -/
theorem retResult : Obligations.RetResult := by
  refine fun s c hp => ⟨fun n hn hr => ?_, fun r hn => ?_, fun n hn hr => ?_⟩
  · have reg := returned_readReg s n
    obtain ⟨hmem, hhost, hghost⟩ := returned_rest s n
    refine ⟨_, exec_ret s c n hp hn hr, fun k hk => ?_, fun k hk => ?_, fun j k hk => ?_, ?_,
      fun q hfp hip hsp hs => ?_, hmem, hhost, hghost⟩
    · rw [reg .fp]
      exact frameWord_byte s _ 0 k hk
    · rw [reg .ip]
      exact frameWord_byte s _ 8 k hk
    · rw [reg (.s j), Nat.add_assoc (s.readReg .fp).toNat]
      exact frameWord_byte s _ (16 + 8 * j.val) k hk
    · rw [reg .sp]
      exact belowArguments_toNat _ n
    · rw [reg q]
      cases q <;> simp_all
  · rw [exec_ret_eq s c hp, hn]
    exact ⟨_, rfl, raise_took s r⟩
  · rw [exec_ret_eq s c hp, hn, checkRange_error s _ frameSize hr]
    exact ⟨_, rfl, raise_took s _⟩

/-! ## The calling convention -/

/-- While the bytes of the frame stand as `call` wrote them, its words are those `call` pushed (rules R210,
R212). -/
theorem frameWord_of_called (s u : State) (target : Word) (hm : s.mem.wf = true)
    (hkept : ∀ a, (s.readReg .sp).toNat ≤ a → a < (s.readReg .sp).toNat + 80 →
      u.byteAt a = (s.called target).byteAt a)
    (i : Nat) (x : Word) (hx : s.frame[i]? = some x) : u.frameWord (s.readReg .sp) (8 * i) = x := by
  obtain ⟨hi, -⟩ := List.getElem?_eq_some_iff.mp hx
  rw [frame_length] at hi
  refine eq_of_bytes (n := 8) _ _ fun k hk => ?_
  rw [frameWord_byte u _ _ k hk, hkept _ (by omega) (by omega), called_frame_byte s target hm i k x hx hk]

/-- Settles O35: `ret` reloads the words `call` pushed, from the same place, since `$fp` still points there. -/
theorem callThenRetRestores : Obligations.CallThenRetRestores := by
  intro s t u c c' v target n hp hm hv hr hcall hcfg hfp hkept hn hp'
  obtain rfl : s.called target = t := by
    simpa [exec_call s c v target hp hv hr] using hcall
  replace hfp : u.readReg .fp = s.readReg .sp := hfp.trans (called_readReg s target .fp)
  obtain ⟨⟨-, -, hcalled⟩, -⟩ := called_rest s target
  have hret := exec_ret u c' n hp' (by rwa [hfp]) (by rwa [hfp, hcfg, hcalled])
  have word := frameWord_of_called s u target hm.1 hkept
  have reg := returned_readReg u n
  rw [hfp] at reg
  refine ⟨_, hret, (reg .ip).trans (word 1 _ (frame_ip s)), (reg .fp).trans (word 0 _ (frame_fp s)),
    reg .sp, fun j => ?_, fun j => reg (.r j), reg .ret, reg .flag, (returned_rest u n).1⟩
  have hword := word (j.val + 2) _ (frame_preserved s j)
  rw [Nat.mul_add, Nat.add_comm] at hword
  exact (reg (.s j)).trans hword

/-! ## The arguments -/

/-- An offset that fits 24 bits signed is a field with its value (rule R85). -/
theorem offsetOf_fits (n : Int) (hlo : -8388608 ≤ n) (hhi : n ≤ 8388607) :
    ∃ off : BitVec 24, offsetOf n = some off ∧ off.toInt = n :=
  ⟨BitVec.ofInt 24 n, if_pos ⟨hlo, hhi⟩, BitVec.toInt_ofInt_eq_self (by decide) (by omega) (by omega)⟩

/-- `ldarg` of an argument whose offset fits its field is one `load` through `$fp` (rules R214, R217). -/
theorem expand_ldarg (c : Cond) (rd : Reg) (n i : Nat) (off : BitVec 24) (hi : i < n)
    (hoff : offsetOf (argOffset n i) = some off) :
    expand (some n) (.ldarg c rd i) = some ([.load c rd (.ind .fp off)], some n) := by
  simp [expand, hi, hoff]

/-- A `load` whose operand faults takes the fault (rules R100, R301). -/
theorem exec_load_error (s : State) (c : Cond) (rd : Reg) (v : Value) (r : FaultReason) (hp : s.Passes c)
    (hv : s.valZ v = .error r) : exec (.load c rd v) s = .next (s.raise r) := by
  change s.conditional c (s.conclude (s.valZ v >>= fun b => pure (s.writeDest rd b))) = _
  rw [conditional_pass s c _ hp, hv]
  rfl

/-- Settles O60: `ldarg` is a `load` at the offset of the argument from `$fp`. -/
theorem ldargLoadsArgument : Obligations.LdargLoadsArgument := by
  intro s c rd n i hp hi hfits
  obtain ⟨off, hoff, hval⟩ := offsetOf_fits (argOffset n i)
    (by rw [argOffset]; omega) (by rw [argOffset]; omega)
  obtain ⟨hin, hout⟩ := valZ_of_readHalf s (.ind .fp off) (s.indirect .fp off) rfl
  refine ⟨_, s.indirect .fp off, expand_ldarg c rd n i off hi hoff, ?_, fun hr => ?_, fun hr => ?_⟩
  · rw [indirect_toNat, hval, argOffset, Int.neg_mul, ← Int.sub_eq_add_neg]
  · obtain ⟨b, hb, hsmall, hbytes⟩ := hin hr
    exact ⟨_, b, exec_load s c rd _ b hp hb, writeDest_wrote s rd b, hsmall, hbytes⟩
  · exact ⟨_, exec_load_error s c rd _ _ hp (hout hr), raise_took s _⟩

end Sys2Proof.Machine

/-! PROOFS. The statements about the miscellaneous instruction (`46_misc.md`): `nop` by itself, and the step
over the zero word that encodes it. -/

namespace Sys2Proof.Machine

/-- `nop` answers the state it was given (rule R240). -/
theorem exec_nop (s : State) : exec .nop s = .next s := rfl

/-- Eight zero bytes are the encoding of `nop` (rules R60, R240). -/
theorem decodeBytes_zeros : decodeBytes (List.replicate 8 0) = .ok .nop := by decide

/-- Settles O43: the step over a zero word decodes `nop`, so all it does is the advance of `$ip`. -/
theorem nopDoesNothing : Obligations.NopDoesNothing := by
  refine ⟨exec_nop, fun s hrun hin hzeros => ⟨s.advance, ?_, advance_ip s, advance_onlyIpMoved s⟩⟩
  have hdecode : decodeBytes s.bytesAtIp = .ok .nop := by rw [hzeros, decodeBytes_zeros]
  rw [step_of_decode s .nop hrun hin hdecode, exec_nop]

end Sys2Proof.Machine

/-! PROOFS. The statements about the system calls (`47_system_calls.md`): which service a number invokes, what
each of the twelve does and leaves unchanged, and when an input service has no answer. -/

namespace Sys2Proof.Machine

/-! ## The service a number invokes -/

/-- The number that invokes a service (rule R250). -/
def Service.number : Service → Nat
  | .printInt => 1
  | .printFloat => 2
  | .printDouble => 3
  | .printChar => 4
  | .printString => 5
  | .readInt => 6
  | .readFloat => 7
  | .readDouble => 8
  | .readChar => 9
  | .readString => 10
  | .exit => 11
  | .exit2 => 12

/-- A service is invoked by its number. -/
theorem serviceOf_of_number (k : Word) (sv : Service) (h : k.toNat = sv.number) :
    serviceOf k = some sv := by
  rw [serviceOf, h]
  cases sv <;> rfl

/-- The numbers from 1 to 12 are those of the services. -/
theorem exists_number (n : Nat) (hlo : 1 ≤ n) (hhi : n ≤ 12) : ∃ sv : Service, n = sv.number := by
  interval_cases n
  exacts [⟨.printInt, rfl⟩, ⟨.printFloat, rfl⟩, ⟨.printDouble, rfl⟩, ⟨.printChar, rfl⟩,
    ⟨.printString, rfl⟩, ⟨.readInt, rfl⟩, ⟨.readFloat, rfl⟩, ⟨.readDouble, rfl⟩, ⟨.readChar, rfl⟩,
    ⟨.readString, rfl⟩, ⟨.exit, rfl⟩, ⟨.exit2, rfl⟩]

/-- No other number invokes a service (rule R264). -/
theorem serviceOf_unknown (k : Word) (h : k.toNat = 0 ∨ 12 < k.toNat) : serviceOf k = none := by
  unfold serviceOf
  split
  on_goal 13 => rfl
  all_goals omega

/-! ## The instruction -/

section Syscall

variable {s : State} {c : Cond} {v : Value} {k : Word}

/-- A `syscall` whose operand is the number of a service is that service (rules R218, R250). -/
theorem exec_syscall (sv : Service) (hp : s.Passes c) (hv : s.valZ v = .ok k)
    (hk : k.toNat = sv.number) : exec (.syscall c v) s = s.serve sv := by
  change s.conditional c _ = _
  rw [conditional_pass s c _ hp, hv]
  simp only [serviceOf_of_number k sv hk]

/-- A `syscall` with another number takes the fault of a bad system call (rule R264). -/
theorem exec_syscall_unknown (hp : s.Passes c) (hv : s.valZ v = .ok k)
    (hk : k.toNat = 0 ∨ 12 < k.toNat) : exec (.syscall c v) s = .next (s.raise .badSyscall) := by
  change s.conditional c _ = _
  rw [conditional_pass s c _ hp, hv]
  simp only [serviceOf_unknown k hk, conclude_error]

end Syscall

/-- Settles O42: a number that no service has is a fault, and a fault has its effect only. -/
theorem unknownServiceFaults : Obligations.UnknownServiceFaults := fun s _ _ _ hp hv hk =>
  ⟨_, exec_syscall_unknown hp hv hk, raise_took s _⟩

/-! ## Output -/

/-- An event appended to the output leaves every register, memory, the pending input, the configuration
and the ghost record (rules R250, R251). -/
theorem emit_frame (s : State) (e : OutputEvent) :
    SameRegsBut [] s (s.emit e) ∧ SameMem s (s.emit e) ∧ (s.emit e).input = s.input ∧
      (s.emit e).cfg = s.cfg ∧ (s.emit e).lastFault = s.lastFault :=
  ⟨fun q _ => emit_readReg s q e, fun _ => rfl, rfl, rfl, rfl⟩

/-- Settles O36: each of the four services emits the event of its number. -/
theorem printServices : Obligations.PrintServices := by
  intro s c v k hp hv hk
  suffices hemit : ∃ e, exec (.syscall c v) s = .next (s.emit e) ∧
      (k.toNat = 1 → e = .printInt (s.readReg (.r 0))) ∧
      (k.toNat = 2 → e = .printFloat ((s.readReg (.r 0)).extractLsb' 0 32)) ∧
      (k.toNat = 3 → e = .printDouble (s.readReg (.r 0))) ∧
      (k.toNat = 4 → e = .printChar ((s.readReg (.r 0)).extractLsb' 0 8)) by
    obtain ⟨e, hexec, hint, hfloat, hdouble, hchar⟩ := hemit
    exact ⟨_, e, hexec, emit_output s e, hint, hfloat, hdouble, hchar, emit_frame s e⟩
  obtain hk | hk | hk | hk := hk
  · exact ⟨_, exec_syscall .printInt hp hv hk, by simp [hk, State.arg1]⟩
  · exact ⟨_, exec_syscall .printFloat hp hv hk, by simp [hk, State.arg1]⟩
  · exact ⟨_, exec_syscall .printDouble hp hv hk, by simp [hk, State.arg1]⟩
  · exact ⟨_, exec_syscall .printChar hp hv hk, by simp [hk, State.arg1]⟩

/-- The string at an address whose first zero byte is met `n` bytes further, inside memory (rule R256). -/
theorem stringAt_of_zero (s : State) (a : Word) (n : Nat) (hin : a.toNat + n < s.cfg.memSize)
    (hne : ∀ k, k < n → s.byteAt (a.toNat + k) ≠ 0) (hzero : s.byteAt (a.toNat + n) = 0) :
    s.stringAt a = .ok ((List.range n).map fun k => s.byteAt (a.toNat + k)) := by
  have hfound : s.mem.stringAt (s.cfg.memSize - a.toNat) a.toNat =
      some ((List.range n).map fun k => s.byteAt (a.toNat + k)) := by
    refine (memory_stringAt_some ..).mpr ⟨?_, ?_, fun k hk => ?_⟩
    · rw [List.length_map, List.length_range]
      omega
    · rwa [List.length_map, List.length_range]
    · rw [List.length_map, List.length_range] at hk
      rw [List.getElem_map, List.getElem_range]
      exact ⟨rfl, hne k hk⟩
  rw [State.stringAt, hfound]

/-- With no zero byte before the end of memory there is no string (rule R256; log entry 13). -/
theorem stringAt_of_no_zero (s : State) (a : Word)
    (hne : ∀ b, a.toNat ≤ b → b < s.cfg.memSize → s.byteAt b ≠ 0) :
    s.stringAt a = .error (.memRange (max a.toNat s.cfg.memSize)) := by
  have hnone : s.mem.stringAt (s.cfg.memSize - a.toNat) a.toNat = none :=
    (memory_stringAt_none ..).mpr fun k hk => hne _ (by omega) (by omega)
  rw [State.stringAt, hnone]

/-- `print_string` emits the string it finds, or takes the fault of the search (rule R256). -/
theorem serve_printString (s : State) :
    s.serve .printString =
      s.conclude ((s.stringAt (s.readReg (.r 0))).map fun bs => s.emit (.printString bs)) := rfl

/-- Settles O37: the search for the zero byte ends at it, or at the end of memory. -/
theorem printStringService : Obligations.PrintStringService := by
  refine fun s c v hp hv => ⟨fun n hin hne hzero => ?_, fun hne => ?_⟩
  · rw [exec_syscall .printString hp hv rfl, serve_printString, stringAt_of_zero s _ n hin hne hzero]
    exact ⟨_, rfl, emit_output .., emit_frame ..⟩
  · rw [exec_syscall .printString hp hv rfl, serve_printString, stringAt_of_no_zero s _ hne]
    exact ⟨_, _, rfl, raise_took ..⟩

/-! ## Input: a value in the return register -/

/-- The state with the word `x` answered into `$ret` and the answers `rest` still pending (rules R257 to
R260). -/
def State.answered (s : State) (rest : List InputAnswer) (x : Word) : State :=
  { s with input := rest }.writeReg .ret x

section Answered

variable (s : State) (rest : List InputAnswer)

/-- An answer changes `$ret` and the pending input only (rule R250). -/
theorem answered_frame (x : Word) : SameRegsBut [.ret] s (s.answered rest x) ∧
    SameMem s (s.answered rest x) ∧ (s.answered rest x).input = rest ∧
    (s.answered rest x).output = s.output ∧ (s.answered rest x).cfg = s.cfg ∧
    (s.answered rest x).lastFault = s.lastFault := by
  refine ⟨fun q hq => ?_, fun a => writeReg_byteAt .., writeReg_input .., writeReg_output ..,
    writeReg_cfg .., writeReg_lastFault ..⟩
  exact (readReg_writeReg_of_ne _ .ret q _ (List.ne_of_not_mem_cons hq)).trans (readReg_with_input ..)

theorem serve_readInt (x : Word) (h : s.input = .int x :: rest) :
    s.serve .readInt = .next (s.answered rest x) := by
  simp only [State.serve, serviceReadInt, h, State.answered]

theorem serve_readFloat (y : Half) (h : s.input = .float y :: rest) :
    s.serve .readFloat = .next (s.answered rest (y.setWidth 64)) := by
  simp only [State.serve, serviceReadFloat, h, State.answered]

theorem serve_readDouble (x : Word) (h : s.input = .double x :: rest) :
    s.serve .readDouble = .next (s.answered rest x) := by
  simp only [State.serve, serviceReadDouble, h, State.answered]

theorem serve_readChar (y : Byte) (h : s.input = .char y :: rest) :
    s.serve .readChar = .next (s.answered rest (y.setWidth 64)) := by
  simp only [State.serve, serviceReadChar, h, State.answered]

end Answered

/-- A word with the number of a narrower value is its zero-extension. -/
theorem eq_setWidth_of_toNat_eq {w : Nat} (hw : w ≤ 64) (x : Word) (y : BitVec w)
    (h : x.toNat = y.toNat) : x = y.setWidth 64 :=
  BitVec.eq_of_toNat_eq (h.trans (BitVec.toNat_setWidth_of_le hw).symm)

/-- Settles O38: whichever of the four services is asked, the answer goes to `$ret`. -/
theorem readServices : Obligations.ReadServices := by
  intro s c v k rest hp hv x h
  suffices hexec : exec (.syscall c v) s = .next (s.answered rest x) from
    ⟨_, hexec, readReg_writeReg_self _ .ret x nofun, answered_frame s rest x⟩
  obtain ⟨hk, hin⟩ | ⟨hk, y, hin, hx⟩ | ⟨hk, hin⟩ | ⟨hk, y, hin, hx⟩ := h
  · rw [exec_syscall .readInt hp hv hk, serve_readInt s rest x hin]
  · rw [exec_syscall .readFloat hp hv hk, serve_readFloat s rest y hin,
      eq_setWidth_of_toNat_eq (by decide) x y hx]
  · rw [exec_syscall .readDouble hp hv hk, serve_readDouble s rest x hin]
  · rw [exec_syscall .readChar hp hv hk, serve_readChar s rest y hin,
      eq_setWidth_of_toNat_eq (by decide) x y hx]

/-! ## Input: no answer -/

/-- What the model takes as an answer to an input service: one of its kind, a string without a zero byte in
it (rule R251; log entry 8). -/
inductive Service.AnsweredBy : Service → InputAnswer → Prop where
  | int (x : Word) : AnsweredBy .readInt (.int x)
  | float (x : Half) : AnsweredBy .readFloat (.float x)
  | double (x : Word) : AnsweredBy .readDouble (.double x)
  | char (x : Byte) : AnsweredBy .readChar (.char x)
  | string (bs : List Byte) (h : 0 ∉ bs) : AnsweredBy .readString (.string bs)

/-- An input service is stuck unless the first pending answer is one for it (rule R251). -/
theorem serve_stuck (s : State) (sv : Service) (hlo : 6 ≤ sv.number) (hhi : sv.number ≤ 10)
    (hno : ∀ a rest, s.input = a :: rest → ¬ sv.AnsweredBy a) : s.serve sv = .fault .noInput := by
  cases sv with
  | printInt | printFloat | printDouble | printChar | printString => exact absurd hlo (by decide)
  | exit | exit2 => exact absurd hhi (by decide)
  | readInt | readFloat | readDouble | readChar =>
    simp only [State.serve, serviceReadInt, serviceReadFloat, serviceReadDouble, serviceReadChar]
    split
    · rename_i hin
      exact absurd (by constructor) (hno _ _ hin)
    · rfl
  | readString =>
    simp only [State.serve, serviceReadString]
    split
    · rename_i bs rest hin
      have hzero : 0 ∈ bs := by_contra fun h => hno _ _ hin (.string bs h)
      rw [if_neg fun hall => by simpa using List.all_eq_true.mp hall 0 hzero]
    · rfl

/-- Settles O39: each kind of answer is one that the number's hypothesis excludes. -/
theorem readWithoutAnswerIsStuck : Obligations.ReadWithoutAnswerIsStuck := by
  intro s c v k hp hv hlo hhi hint hfloat hdouble hchar hstring
  obtain ⟨sv, hk⟩ := exists_number k.toNat (by omega) (by omega)
  rw [exec_syscall sv hp hv hk]
  refine serve_stuck s sv (hk ▸ hlo) (hk ▸ hhi) fun a rest hin ha => ?_
  cases ha with
  | int x => exact hint hk x rest hin
  | float x => exact hfloat hk x rest hin
  | double x => exact hdouble hk x rest hin
  | char x => exact hchar hk x rest hin
  | string bs h => exact h (hstring hk bs rest hin)

/-! ## Input: a string -/

/-- Bytes that do not fit memory are the fault of their address (rules R42, R48). -/
theorem storeBytes_error (s : State) (a : Word) (bs : List Byte) (hbs : bs ≠ [])
    (hr : s.cfg.memSize < a.toNat + bs.length) : s.storeBytes a bs = .error (.memRange a.toNat) := by
  simp [State.storeBytes, State.inRange, hbs, Nat.not_le_of_lt hr]

/-- Bytes that are none or fit memory are stored from their address up, and nothing else changes (rules R44,
R48). -/
theorem storeBytes_stores (s : State) (a : Word) (bs : List Byte) (hm : s.mem.wf = true)
    (hr : bs = [] ∨ a.toNat + bs.length ≤ s.cfg.memSize) :
    ∃ t, s.storeBytes a bs = .ok t ∧ (∀ k (h : k < bs.length), t.byteAt (a.toNat + k) = bs[k]) ∧
      SameMemBut a.toNat bs.length s t ∧ SameRegsBut [] s t ∧ t.input = s.input ∧
      t.output = s.output ∧ t.cfg = s.cfg ∧ t.lastFault = s.lastFault := by
  have byte := fun b => memory_read_writeList bs s.mem a.toNat b hm
  refine ⟨_, (storeBytes_ok ..).mpr ⟨hr, rfl⟩, fun k hk => ?_, fun b hb => ?_,
    fun q _ => readReg_with_mem .., rfl, rfl, rfl, rfl⟩
  · rw [byteAt_with_mem, byte, dif_pos (by omega)]
    simp only [Nat.add_sub_cancel_left]
  · rw [byteAt_with_mem, byte, dif_neg (by omega)]
    rfl

/-- `read_string` with an answer stores what is kept of it, the answer taken (rule R261). -/
theorem serve_readString (s : State) (bs : List Byte) (rest : List InputAnswer)
    (hin : s.input = .string bs :: rest) (hbs : ∀ b ∈ bs, b ≠ 0) :
    s.serve .readString = s.conclude ({ s with input := rest }.storeBytes (s.readReg (.r 0))
      (storedString s.cfg.readStringTerm (s.readReg (.r 1)).toNat bs)) := by
  have hall : bs.all (· != 0) = true := List.all_eq_true.mpr fun b hb => bne_iff_ne.mpr (hbs b hb)
  simp only [State.serve, serviceReadString, hin, hall, if_true, State.arg1, State.arg2]

/-- `READ_STRING_TERM` = `outside`: up to `m` characters and the zero (rule R261). -/
theorem storedString_outside (m : Nat) (bs : List Byte) :
    storedString .outside m bs = bs.take m ++ [0] := rfl

/-- `READ_STRING_TERM` = `inside`: up to `m - 1` characters and the zero (rule R261). -/
theorem storedString_inside (m : Nat) (bs : List Byte) (h : m ≠ 0) :
    storedString .inside m bs = bs.take (m - 1) ++ [0] := if_neg h

/-- `READ_STRING_TERM` = `inside` with no room for the zero: nothing (rule R261). -/
theorem storedString_inside_zero (bs : List Byte) : storedString .inside 0 bs = [] := rfl

/-- Settles O40: the bytes kept of the answer are stored after one range check. -/
theorem readStringService : Obligations.ReadStringService := by
  intro s c v bs stored rest hp hm hv hin hbs hstored
  have hkept : storedString s.cfg.readStringTerm (s.readReg (.r 1)).toNat bs = stored := by
    obtain ⟨hmode, rfl⟩ | ⟨hmode, hm0, rfl⟩ | ⟨hmode, hm0, rfl⟩ := hstored
    · rw [hmode, storedString_outside]
    · rw [hmode, storedString_inside _ _ fun h => hm0 (BitVec.eq_of_toNat_eq h)]
    · rw [hmode, hm0]
      exact storedString_inside_zero bs
  rw [exec_syscall .readString hp hv rfl, serve_readString s bs rest hin hbs, hkept]
  refine ⟨fun hr => ?_, fun hne hr => ?_⟩
  · obtain ⟨t, hstore, hbytes, houtside, hregs, hrest⟩ :=
      storeBytes_stores { s with input := rest } (s.readReg (.r 0)) stored hm.1 hr
    rw [hstore]
    exact ⟨t, rfl, hbytes, houtside, fun q hq => (hregs q hq).trans (readReg_with_input ..), hrest⟩
  · rw [storeBytes_error { s with input := rest } _ _ hne hr]
    exact ⟨_, rfl, raise_took s _⟩

/-! ## Program flow -/

/-- The state halted with the exit code `x` (rules R262, R263). -/
def State.exited (s : State) (x : Word) : State := (s.writeReg .ret x).halt

section Exited

variable (s : State) (x : Word)

/-- `$flag` after an exit: `RUN` is cleared (rule R262). -/
theorem exited_flag : (s.exited x).readReg .flag = withRun (s.readReg .flag) false := by
  simp [State.exited, State.halt, readReg_writeReg]

theorem exited_halted : (s.exited x).Halted := by
  rw [State.Halted, exited_flag, flagRun_withRun]

/-- An exit keeps every flag bit but `RUN`. -/
theorem exited_flag_bit (i : Nat) (h : i ≠ 4) :
    ((s.exited x).readReg .flag).getLsbD i = (s.readReg .flag).getLsbD i := by
  rw [exited_flag, withRun_bit, if_neg h]

theorem exited_exitCode : (s.exited x).exitCode = x := by
  simp [State.exitCode, State.exited, State.halt, readReg_writeReg]

/-- An exit changes nothing but `$flag` and `$ret` (rule R250). -/
theorem exited_frame : SameRegsBut [.flag, .ret] s (s.exited x) ∧ SameMem s (s.exited x) ∧
    SameHost s (s.exited x) ∧ (s.exited x).lastFault = s.lastFault := by
  refine ⟨fun q hq => ?_, fun a => writeReg_byteAt .., ⟨rfl, rfl, rfl⟩, rfl⟩
  simp only [List.mem_cons, List.not_mem_nil, or_false, not_or] at hq
  exact (readReg_writeReg_of_ne _ .flag q _ hq.1).trans (readReg_writeReg_of_ne s .ret q _ hq.2)

/-- `exit` leaves `$ret` as the exit code (rule R262). -/
theorem serve_exit : s.serve .exit = .next (s.exited (s.readReg .ret)) := rfl

/-- `exit2` takes the exit code from `$r1` (rule R263). -/
theorem serve_exit2 : s.serve .exit2 = .next (s.exited (s.readReg (.r 0))) := rfl

end Exited

/-- Settles O41: the two services differ only in the word they leave as the exit code. -/
theorem exitServices : Obligations.ExitServices := by
  intro s c v k hp hv hk
  suffices hexit : ∃ x, exec (.syscall c v) s = .next (s.exited x) ∧
      (k.toNat = 11 → x = s.readReg .ret) ∧ (k.toNat = 12 → x = s.readReg (.r 0)) by
    obtain ⟨x, hexec, hret, harg⟩ := hexit
    have code := exited_exitCode s x
    exact ⟨_, hexec, exited_halted s x, exited_flag_bit s x, fun h => code.trans (hret h),
      fun h => code.trans (harg h), exited_frame s x⟩
  obtain hk | hk := hk
  · exact ⟨_, (exec_syscall .exit hp hv hk).trans (serve_exit s), by simp [hk]⟩
  · exact ⟨_, (exec_syscall .exit2 hp hv hk).trans (serve_exit2 s), by simp [hk]⟩

end Sys2Proof.Machine

/-! PROOFS. The statements about exceptions (`60_exceptions.md`): an operand that cannot be read is the fault
and nothing else, the ghost record of the last fault is not read, and the four ways to halt. -/

namespace Sys2Proof.Machine

/-! ## Operand faults -/

/-- A conditional instruction that begins with a read ends in the read's fault, whatever it would have done
with the value (rules R304, R305). -/
theorem conditional_bind_error {α : Type} (s : State) (c : Cond) (r : FaultReason)
    (read : Except FaultReason α) (cont : α → Except FaultReason State) (hp : s.Passes c)
    (hread : read = .error r) : s.conditional c (s.conclude (read >>= cont)) = .next (s.raise r) := by
  rw [conditional_pass s c _ hp, hread]
  rfl

/-- A `syscall` whose operand faults takes the fault and serves nothing (rules R218, R305). -/
theorem exec_syscall_error (s : State) (c : Cond) (v : Value) (r : FaultReason) (hp : s.Passes c)
    (hv : s.valZ v = .error r) : exec (.syscall c v) s = .next (s.raise r) := by
  change s.conditional c _ = _
  rw [conditional_pass s c _ hp, hv]
  rfl

/-- Settles O17: every form reads its operand first, untyped or under its type, and concludes with the
fault of the read. -/
theorem operandFaultIsPrecise : Obligations.OperandFaultIsPrecise := by
  intro s c v r hp hv
  obtain ⟨hvalZ, hvalT⟩ := opRead_error s v r hv
  have untyped (cont : Word → Except FaultReason State) :=
    conditional_bind_error s c r (s.valZ v) cont hp hvalZ
  have typed (dt : DType) (cont : BitVec (typeWidth dt) → Except FaultReason State) :=
    conditional_bind_error s c r (s.valT v dt) cont hp (hvalT dt)
  refine ⟨s.raise r, raise_took s r, ?transfer, ?arithmetic, ?compare, ?logical, ?push, ?call, ?syscall⟩
  case transfer => exact fun rd => ⟨untyped _, untyped _⟩
  case arithmetic => exact fun dt rd rs => ⟨typed dt _, typed dt _, typed dt _, typed dt _, typed dt _⟩
  case compare => exact fun dt rs => typed dt _
  case logical => exact fun rd rs => ⟨untyped _, untyped _, untyped _, untyped _, untyped _⟩
  case push => exact untyped _
  case call => exact untyped _
  case syscall => exact exec_syscall_error s c v r hp hvalZ

/-! ## The ghost record -/

/-- A step of a state with a past is a step of the state without it, the past kept (rules R31, R300). -/
theorem step_withPast_next (s t : State) (o : List OutputEvent) (g : Option FaultReason)
    (h : step (s.withPast o g) = .next t) : ∃ u, step s = .next u ∧ t = u.withPast o g := by
  rw [withPast_step] at h
  cases hu : step s with
  | fault f => rw [hu] at h; cases h
  | refused r => rw [hu] at h; cases h
  | next u =>
    rw [hu] at h
    exact ⟨u, rfl, (Host.Outcome.next.inj h).symm⟩

/-- Settles O51: a state is one without a record, with a last fault put before it as its past. -/
theorem ghostRecordIsNeverRead : Obligations.GhostRecordIsNeverRead := by
  intro s t g h
  have past (g' : Option FaultReason) : { s with lastFault := g' } =
      ({ s with lastFault := none } : State).withPast [] g' := rfl
  obtain ⟨u, hu, rfl⟩ := step_withPast_next { s with lastFault := none } t [] s.lastFault h
  refine ⟨u.lastFault.or g, by rw [past g, withPast_step, hu]; rfl, ?_⟩
  change u.lastFault.or g = u.lastFault.or s.lastFault ∨
    u.lastFault.or g = g ∧ u.lastFault.or s.lastFault = s.lastFault
  cases u.lastFault with
  | none => exact .inr ⟨rfl, rfl⟩
  | some r => exact .inl rfl

/-! ## The ways to halt -/

/-- Settles O53: of what an instruction does to `$flag`, only the causes the rule names reach bit 4. -/
theorem haltCauses : Obligations.HaltCauses := by
  intro s t h ht
  obtain ⟨hrun, ⟨r, -, rfl⟩ | ⟨e, -, -, rfl⟩ | ⟨i, -, hi, hx⟩⟩ := step_cases s t h
  · exact .inl ⟨r, .inl (raise_took s r)⟩
  · exact .inl ⟨_, .inr (raise_took s.advance _)⟩
  · have hflag : s.advance.readReg .flag = s.readReg .flag := advance_readReg_of_ne s .flag nofun
    have changed : flagRun (t.readReg .flag) ≠ flagRun (s.readReg .flag) :=
      fun hsame => hrun (hsame.symm.trans ht)
    cases exec_flagEffect i s.advance t hx with
    | kept _ _ hk => exact absurd (by rw [hk, hflag]) changed
    | fault _ r => exact .inl ⟨r, .inr (raise_took s.advance r)⟩
    | named _ _ hn => exact .inr ⟨i, hi, .inl hn⟩
    | zero _ _ rd z _ hz => exact absurd (by rw [hz, flagRun_withZ, hflag]) changed
    | compared _ _ _ _ _ code z hc =>
      exact absurd (by rw [hc, flagRun_withZ, flagRun_withCmp, hflag]) changed
    | exited c v _ hv _ => exact .inr ⟨_, hi, .inr ⟨c, v, rfl, hv⟩⟩

end Sys2Proof.Machine

/-! PROOFS. The statements about reset (`70_reset_and_hazards.md`) and about the configuration that stands in
the state from then on (`10_state.md` section 1). -/

namespace Sys2Proof.Machine

/-- `$flag` after reset: `RUN` set and every other bit clear (rule R330). -/
theorem resetWith_flag (cfg : Config) : (State.resetWith cfg).readReg .flag = 0x10 := rfl

/-- The machine runs after reset (rules R16, R330). -/
theorem resetWith_not_halted (cfg : Config) : ¬ (State.resetWith cfg).Halted := by
  rw [State.Halted, resetWith_flag]
  decide

/-- Settles O44: each row of rule R330 is a field of the reset state. -/
theorem resetValues : Obligations.ResetValues := fun cfg =>
  ⟨rfl, rfl, rfl, resetWith_flag cfg, readReg_zero _, rfl, resetWith_not_halted cfg, rfl, rfl⟩

/-- Settles O48: a fault and the advance of `$ip` leave the configuration alone, and so does every
instruction. -/
theorem stepKeepsConfiguration : Obligations.StepKeepsConfiguration := by
  intro s t h
  obtain ⟨-, ⟨r, -, rfl⟩ | ⟨e, -, -, rfl⟩ | ⟨i, -, -, hx⟩⟩ := step_cases s t h
  · exact raise_cfg s r
  · exact raise_cfg s.advance _
  · exact exec_cfg i s.advance t hx

end Sys2Proof.Machine

/-! PROOFS. The words the spec writes out (`95_test_vectors.md`). -/

namespace Sys2Proof

/-- A word that is the encoding of an instruction decodes to it (rule R90). -/
theorem decode_of_encode_eq (i : Instr) (w : Word) (hwf : i.wf = true) (hw : encode i = w) :
    decode w = .ok i :=
  hw ▸ decodeOfEncode i hwf

/-- A word with opcode 0 and another bit set is rejected for those bits (rule R87 case 2). -/
theorem decode_nopBits (w : Word) (hop : (field w 0 6).toNat = 0) (hw : w ≠ 0) :
    decode w = .error .nopBits := by
  rw [decode, hop]
  exact if_neg hw

/-- Settles O4: six of the words are the encodings of their instructions; `nop` admits no other bit, and
the type field of the last word is 3. -/
theorem specWordsDecode : Obligations.SpecWordsDecode :=
  ⟨decode_of_encode_eq .nop _ rfl (by decide),
    decode_of_encode_eq (.load ..) _ rfl (by decide),
    decode_of_encode_eq (.add ..) _ rfl (by decide),
    decode_of_encode_eq (.cmp ..) _ rfl (by decide),
    decode_of_encode_eq (.push ..) _ rfl (by decide),
    decode_of_encode_eq (.ret ..) _ rfl (by decide),
    decode_nopBits _ (by decide) (by decide),
    by decide⟩

end Sys2Proof
